-- ==== Sys2Proof/Word.lean ====
section
/-! DEFINITION. The word types of the Streebog hash core (spec/00_scope.md R6, R8; spec/30_encoding.md R81). -/

namespace Sys2Proof

/-- A byte, bit 7 its most-significant bit (R8). -/
abbrev Byte := BitVec 8

/-- A 64-bit unsigned word: a word lane, a command operand, `LEN`, `POS`, `ERR_INFO` (R8, R29, R30, R34). -/
abbrev Word64 := BitVec 64

/-- A `Vec512` in internal order (R6), held as the number `int(v)`: byte `v[0]` is the most-significant byte, so a
literal `0x…#512` reads exactly as the spec prints the vector. -/
abbrev Vec512 := BitVec 512

/-- A command word `CMD[71:0]` (R81). -/
abbrev CmdWord := BitVec 72

end Sys2Proof
end

