-- ==== Sys2Proof/Config.lean ====
section
/-! DEFINITION. What is fixed for one core (spec/00_scope.md R4, R5) and the free values: one opaque constant for each
value the spec leaves unspecified (spec/00_scope.md R13: "a model must admit any value (a draw), never zero and never the
last value"). Nothing in Lean can evaluate a free value. One constant serves every core, indexed by the core's own counters
(assumption 20). -/

namespace Sys2Proof

/-- The two digest widths (R4, R28). -/
inductive Width where
  | w256
  | w512
  deriving DecidableEq, Repr

namespace Config

/-- Number of byte offsets of the `MSG` space (R50, R52; `LEN_W = 64`, R5). -/
def messageSpace : Nat := 2 ^ 64

/-- FREE VALUE (assumption 2). What the reset action leaves in `H`, `N`, `SIGMA`, `M`, `K`, `T` (R38, R230), by draw. -/
opaque resetVec : Nat → Vec512

/-- FREE VALUE (assumption 2). What the reset action leaves in `LEN` and `POS` (R38, R230), by draw. -/
opaque resetWord : Nat → Word64

/-- FREE VALUE (assumption 2). What the reset action leaves in lane `j` of `DIGEST` (R38, R230), by draw and lane. -/
opaque resetLane : Nat → Nat → Byte

/-- FREE VALUE (assumption 3). Lanes 32..63 of `DIGEST` after a 256-bit computation (R25, R168), by draw and lane. -/
opaque upperLane : Nat → Nat → Byte

/-- FREE VALUE (assumption 4). What the host sees on lane `j` where no digest byte is promised (R25, U2), by the number
of the host's read and the lane. -/
opaque unpromisedLane : Nat → Nat → Byte

/-- FREE VALUE (assumption 5). What stage `INIT` would load with `CFG = NONE`, an index `ROM.IV` does not have (R51,
R160: never so in a state a run reaches). -/
opaque ivUnconfigured : Vec512

/-- FREE VALUE (assumption 5). The output `DLEN` with `CFG = NONE`, for which R25 gives no value. -/
opaque dlenUnconfigured : Nat

end Config

end Sys2Proof
end

