-- ==== Sys2Proof/Syntax.lean ====
section
/-! DEFINITION. The 22 operations of spec/opcode_table.json (spec/30_encoding.md R80) and the code words that select them. -/

namespace Sys2Proof

/-- One constructor per row of spec/opcode_table.json. Only the two host commands have an operand in their encoding
(R81); a stage works on the registers, a datapath operation on the operand inputs of the datapath. -/
inductive Instr where
  /-- `CONSTRUCT width` (R191): the requested digest width in bits, the whole 64-bit operand (R83). -/
  | construct (width : Word64)
  /-- `COMPUTE len` (R192): the message length in bytes (R84). -/
  | compute (len : Word64)
  /-- Stage `INIT` (R160). -/
  | init
  /-- Stage `FULL` (R164). -/
  | full
  /-- Stage `TAIL` (R165). -/
  | tail
  /-- Stage `FIN_N` (R166). -/
  | finN
  /-- Stage `FIN_S` (R167). -/
  | finS
  /-- Stage `OUT` (R168). -/
  | out
  /-- Datapath `X` (R120). -/
  | x
  /-- Datapath `S` (R121). -/
  | s
  /-- Datapath `P` (R122). -/
  | p
  /-- Datapath `L` (R123). -/
  | l
  /-- Datapath `ADD512` (R124). -/
  | add512
  /-- Datapath `LPS` (R140). -/
  | lps
  /-- Datapath `KEYSTEP` (R141). -/
  | keystep
  /-- Datapath `ROUND` (R142). -/
  | round
  /-- Datapath `E` (R143). -/
  | e
  /-- Datapath `G` (R150). -/
  | g
  /-- Datapath `INGEST` (R161). -/
  | ingest
  /-- Datapath `PAD` (R162). -/
  | pad
  /-- Datapath `REV512` (R169). -/
  | rev512
  /-- Datapath `TRUNC256` (R170). -/
  | trunc256
  deriving DecidableEq, Repr

/-- What selects an operation, one constructor per code space (R80). -/
inductive CodeWord where
  /-- A command word on the command channel (R81). -/
  | command (w : CmdWord)
  /-- The `PHASE` code, and whether `LEN - POS >= 64`, which matters in phase `ABSORB` only (R85, R163). -/
  | stage (phase : BitVec 3) (fullBlock : Bool)
  /-- The `DPSEL` code (R86). -/
  | datapath (sel : BitVec 4)
  deriving DecidableEq, Repr

end Sys2Proof
end

