-- ==== Sys2Proof/WellFormed.lean ====
section
/-! DEFINITION. Which code words select an operation (spec/30_encoding.md R82, R85 to R88). An `Instr` needs no check of
its own: its two operands are 64-bit fields of which every value is encodable (R83, R84), so every term of `Instr` is well
formed, and what can be ill formed is a code word. -/

namespace Sys2Proof

/-- The code word selects an operation: the opcode is 0x01 or 0x02 (R82, R87); the phase code is 1 to 5, since 0 is `IDLE`
and 6 and 7 are reserved (R85, R88); the select code is 1 to 14, since 0 is `NONE` and 15 is reserved (R86, R88). -/
def CodeWord.wellFormed : CodeWord → Bool
  | .command w => w.extractLsb' 64 8 == 0x01#8 || w.extractLsb' 64 8 == 0x02#8
  | .stage phase _ => decide (1 ≤ phase.toNat ∧ phase.toNat ≤ 5)
  | .datapath sel => decide (1 ≤ sel.toNat ∧ sel.toNat ≤ 14)

end Sys2Proof
end

