-- ==== Sys2Proof/Decode.lean ====
section
/-! DEFINITION. Decoding and encoding in the three code spaces (spec/30_encoding.md R80 to R89). -/

namespace Sys2Proof

/-- Why a code word selects no operation. -/
inductive DecodeError where
  /-- A command word with an opcode other than 0x01 and 0x02 (R87). -/
  | illegalOpcode (op : BitVec 8)
  /-- `PHASE = IDLE`: no stage is due (R85). -/
  | noStageDue
  /-- `PHASE` codes 6 and 7 (R88). -/
  | reservedPhase
  /-- `DPSEL = NONE`: no datapath operation is wanted (R88). -/
  | noOperation
  /-- `DPSEL = 1111` (R88). -/
  | reservedSelect
  deriving DecidableEq, Repr

/-- What the decoder answers. -/
inductive Decoded where
  | ok (i : Instr)
  | error (e : DecodeError)
  deriving DecidableEq, Repr

/-- The field `OP`, bits 71:64 (R81). -/
def opField (w : CmdWord) : BitVec 8 := w.extractLsb' 64 8

/-- The field `ARG`, bits 63:0 (R81). -/
def argField (w : CmdWord) : Word64 := w.extractLsb' 0 64

/-- The command word with the given fields (R81). -/
def commandWord (op : BitVec 8) (arg : Word64) : CmdWord := op ++ arg

/-- An accepted command word, decoded by its opcode byte (R82, R87, R190). -/
def decodeCommand (w : CmdWord) : Decoded :=
  if opField w = 0x01#8 then .ok (.construct (argField w))
  else if opField w = 0x02#8 then .ok (.compute (argField w))
  else .error (.illegalOpcode (opField w))

/-- The stage the `PHASE` code selects (R85); in phase `ABSORB` it is `FULL` when `LEN - POS >= 64` and `TAIL` otherwise
(R163). -/
def decodeStage (phase : BitVec 3) (fullBlock : Bool) : Decoded :=
  match phase.toNat with
  | 0 => .error .noStageDue
  | 1 => .ok .init
  | 2 => if fullBlock then .ok .full else .ok .tail
  | 3 => .ok .finN
  | 4 => .ok .finS
  | 5 => .ok .out
  | _ => .error .reservedPhase

/-- The datapath operation the `DPSEL` code names (R86). -/
def decodeSelect (sel : BitVec 4) : Decoded :=
  match sel.toNat with
  | 0 => .error .noOperation
  | 1 => .ok .x
  | 2 => .ok .s
  | 3 => .ok .p
  | 4 => .ok .l
  | 5 => .ok .add512
  | 6 => .ok .lps
  | 7 => .ok .keystep
  | 8 => .ok .round
  | 9 => .ok .e
  | 10 => .ok .g
  | 11 => .ok .ingest
  | 12 => .ok .pad
  | 13 => .ok .rev512
  | 14 => .ok .trunc256
  | _ => .error .reservedSelect

/-- Decoding, total on every code word of every space; no mode changes it (R89). -/
def decode : CodeWord → Decoded
  | .command w => decodeCommand w
  | .stage phase fullBlock => decodeStage phase fullBlock
  | .datapath sel => decodeSelect sel

/-- The code word of an operation (R82, R85, R86; the condition of `FULL` and `TAIL`: R163). -/
def encode : Instr → CodeWord
  | .construct width => .command (commandWord 0x01#8 width)
  | .compute len => .command (commandWord 0x02#8 len)
  | .init => .stage 0b001#3 false
  | .full => .stage 0b010#3 true
  | .tail => .stage 0b010#3 false
  | .finN => .stage 0b011#3 false
  | .finS => .stage 0b100#3 false
  | .out => .stage 0b101#3 false
  | .x => .datapath 0b0001#4
  | .s => .datapath 0b0010#4
  | .p => .datapath 0b0011#4
  | .l => .datapath 0b0100#4
  | .add512 => .datapath 0b0101#4
  | .lps => .datapath 0b0110#4
  | .keystep => .datapath 0b0111#4
  | .round => .datapath 0b1000#4
  | .e => .datapath 0b1001#4
  | .g => .datapath 0b1010#4
  | .ingest => .datapath 0b1011#4
  | .pad => .datapath 0b1100#4
  | .rev512 => .datapath 0b1101#4
  | .trunc256 => .datapath 0b1110#4

/-- The code word meant by a number of `nbits` bits of the opcode table. The table numbers the three code spaces
separately, so a number of one byte may be a `PHASE` code or a `DPSEL` code: DESIGN CHOICE (assumption 8), a byte that
is the code of a stage is read as `PHASE`, any other as `DPSEL`, and the condition `LEN - POS >= 64`, which the table
gives no bit, is read as false. -/
def tableCode (nbits w : Nat) : Option CodeWord :=
  if nbits = 72 then if w < 2 ^ 72 then some (.command (BitVec.ofNat 72 w)) else none
  else if nbits = 3 then if w < 8 then some (.stage (BitVec.ofNat 3 w) false) else none
  else if nbits = 4 then if w < 16 then some (.datapath (BitVec.ofNat 4 w)) else none
  else if nbits = 8 then
    if 1 ≤ w ∧ w ≤ 5 then some (.stage (BitVec.ofNat 3 w) false)
    else if w < 16 then some (.datapath (BitVec.ofNat 4 w)) else none
  else none

/-- The instruction a decoder's answer holds. -/
def decodedInstr : Decoded → Option Instr
  | .ok i => some i
  | .error _ => none

/-- The instruction the decoder reads from an opcode-table number of `nbits` bits; none where it refuses. -/
def decodeTableWord (nbits w : Nat) : Option Instr :=
  match tableCode nbits w with
  | some c => decodedInstr (decode c)
  | none => none

end Sys2Proof
end

