-- ==== Sys2Proof/Machine/State.lean ====
section
/-! DEFINITION. The state of one core (spec/10_state.md R20), the host's side of it, and why a step can stop. -/

namespace Sys2Proof.Machine

/-- The controller phase (R31). Codes 6 and 7 are never written, so the type does not hold them (R88). -/
inductive Phase where
  | idle
  | init
  | absorb
  | finN
  | finS
  | out
  deriving DecidableEq, Repr

/-- The three errors the core raises (R200). -/
inductive CoreError where
  /-- `CONFIG_ERROR`, code 1 (R201). -/
  | config
  /-- `INVARIANT_VIOLATION`, code 2 (R202). -/
  | invariantViolation
  /-- `ILLEGAL_COMMAND`, code 3 (R203). -/
  | illegalCommand
  deriving DecidableEq, Repr

/-- The result output of the datapath, in the shape spec/30_encoding.md R86 gives the operation. -/
inductive DpResult where
  /-- No operation has run yet. -/
  | none
  /-- One Vec512. -/
  | vec (r : Vec512)
  /-- The two results of `ROUND`: the state after the round and the next key (R142). -/
  | pair (t kn : Vec512)
  /-- A byte sequence in natural order (`REV512`, `TRUNC256`). -/
  | bytes (d : List Byte)
  deriving DecidableEq, Repr

/-- The datapath's select code, operand inputs and result output (R80 (c), R86). They are wires, not registers of R20;
the model keeps them so that a datapath operation can be run by itself (assumption 7). -/
structure Datapath where
  /-- `DPSEL` (R86). -/
  sel : BitVec 4
  /-- First Vec512 operand. -/
  opA : Vec512
  /-- Second Vec512 operand. -/
  opB : Vec512
  /-- Third Vec512 operand (`G` only). -/
  opC : Vec512
  /-- The round number 1..12 of `KEYSTEP` and `ROUND`: round `r` is held as `r - 1`. -/
  round : Fin 12
  /-- The bytes `b[0..63]` of `INGEST` and `PAD` in natural order. -/
  bytes : Vector Byte 64
  /-- The byte count `L` in 0..63 of `PAD`. -/
  count : Fin 64
  /-- The result of the last operation. -/
  result : DpResult
  deriving DecidableEq, Repr

/-- What the host does next (R11, R90). -/
inductive HostAction where
  /-- Assert and release reset (R230). -/
  | reset
  /-- Present a command word once; where the core does not accept it, the host gives it up (R190). -/
  | command (w : CmdWord)
  /-- Keep presenting a command word until it is accepted (R190). -/
  | hold (w : CmdWord)
  /-- Place the bytes in `MSG` at offsets 0, 1, .. (R90). -/
  | message (bs : List Byte)
  /-- Write one byte of `MSG` (R50, R61). -/
  | write (a : Word64) (b : Byte)
  /-- Make one byte of `MSG` one the memory cannot supply (R56, parameter `P_MSG`). -/
  | withdraw (a : Word64)
  /-- Take no host step for the time of one controller step. -/
  | pass
  /-- Take no host step until `BUSY = 0` (R90). -/
  | wait
  deriving DecidableEq, Repr

/-- The message memory as a canonical list of (offset, byte): strictly rising offsets. An unlisted offset is one the
memory cannot supply, so a read of it is answered `fault` (R56). -/
abbrev Memory := List Host.Cell

/-- The machine: the registers of R20, the message memory (R52), what the host does next, the datapath's ports, and the
counter of draws of free values. -/
structure State where
  /-- `H`, the chaining value (R21). -/
  h : Vec512
  /-- `N`, the bit counter (R22). -/
  n : Vec512
  /-- `SIGMA`, the checksum (R23). -/
  sigma : Vec512
  /-- `M`, the current block (R24). -/
  m : Vec512
  /-- `K`, the round key (R27). -/
  k : Vec512
  /-- `T`, the cipher state (R27). -/
  t : Vec512
  /-- `DIGEST`, 64 byte lanes (R25). -/
  digest : Vector Byte 64
  /-- `CFG`; `none` is the spec's `NONE` (R28). -/
  cfg : Option Width
  /-- `LEN` (R29). -/
  len : Word64
  /-- `POS` (R30). -/
  pos : Word64
  /-- `PHASE` (R31). -/
  phase : Phase
  /-- `DONE` (R32). -/
  done : Bool
  /-- `ERR_CODE`; `none` is code 0 (R33). -/
  errCode : Option CoreError
  /-- `ERR_INFO` (R34). -/
  errInfo : Word64
  /-- The host's message memory `MSG` (R52). -/
  msg : Memory
  /-- What the host does next, first action first (the model's own field, assumption 6). -/
  host : List HostAction
  /-- The datapath's ports (the model's own field, assumption 7). -/
  dp : Datapath
  /-- How many draws of free values there have been (the model's own field, assumption 2). -/
  draws : Nat
  deriving DecidableEq, Repr

/-- Why a step stops with a fault. The errors of spec/60_exceptions.md are none of these: error entry is a next state. -/
inductive Fault where
  /-- Raised by the meaning of a stage whose condition does not hold in the state (another `PHASE`, or `FULL` and `TAIL`
  exchanged). Safe: `step` never asks for such a stage, and the spec has no such step (R85, R163). -/
  | stageNotDue
  /-- Raised by `step` in a state with `DPSEL = 1111`, a code never issued (R88). Safe. -/
  | reservedDatapathSelect
  deriving DecidableEq, Repr

/-- Why an instruction has no meaning. -/
inductive Refusal where
  /-- Raised by an arm of `exec` for an instruction not modelled yet; no arm does. Safe. -/
  | notModelled (mnemonic : String)
  deriving DecidableEq, Repr

/-- The datapath's ports with nothing selected. -/
def Datapath.reset : Datapath where
  sel := 0#4
  opA := 0#512
  opB := 0#512
  opC := 0#512
  round := 0
  bytes := Vector.replicate 64 0#8
  count := 0
  result := .none

/-- The state after reset: `CFG`, `PHASE`, `DONE`, `ERR_CODE`, `ERR_INFO` as R38 and R230 give them. The data registers,
`LEN`, `POS` and `DIGEST` are unspecified there: DESIGN CHOICE (assumption 1), zero, as are the model's own fields. -/
def State.reset : State where
  h := 0#512
  n := 0#512
  sigma := 0#512
  m := 0#512
  k := 0#512
  t := 0#512
  digest := Vector.replicate 64 0#8
  cfg := none
  len := 0#64
  pos := 0#64
  phase := .idle
  done := false
  errCode := none
  errInfo := 0#64
  msg := []
  host := []
  dp := Datapath.reset
  draws := 0

end Sys2Proof.Machine
end

