-- ==== Sys2Proof/Machine/Flags.lean ====
section
/-! DEFINITION. Register codes, status bits and outputs (spec/10_state.md R25, R28, R31 to R35; spec/00_scope.md R12). The
hardware has no condition codes; `DONE`, `ERR` and `BUSY` are its only flags (R36). -/

namespace Sys2Proof.Machine

/-- The 3-bit code of `PHASE` (R31, R85). -/
def phaseCode : Phase → BitVec 3
  | .idle => 0b000#3
  | .init => 0b001#3
  | .absorb => 0b010#3
  | .finN => 0b011#3
  | .finS => 0b100#3
  | .out => 0b101#3

/-- The phase with the given code; none for the reserved codes 6 and 7 (R31, R88). -/
def phaseOfCode (code : BitVec 3) : Option Phase :=
  match code.toNat with
  | 0 => some .idle
  | 1 => some .init
  | 2 => some .absorb
  | 3 => some .finN
  | 4 => some .finS
  | 5 => some .out
  | _ => none

/-- The 2-bit code of `CFG` (R28). -/
def cfgCode : Option Width → BitVec 2
  | none => 0b00#2
  | some .w256 => 0b01#2
  | some .w512 => 0b10#2

/-- The 2-bit code of `ERR_CODE` (R33, R205). -/
def errCodeBits : Option CoreError → BitVec 2
  | none => 0b00#2
  | some .config => 0b01#2
  | some .invariantViolation => 0b10#2
  | some .illegalCommand => 0b11#2

/-- `BUSY = (PHASE != IDLE)` (R35). -/
def busy (s : State) : Bool := decide (s.phase ≠ .idle)

/-- `FATAL = (ERR_CODE = 2 or ERR_CODE = 3)` (R35). -/
def fatal (s : State) : Bool :=
  decide (s.errCode = some .invariantViolation ∨ s.errCode = some .illegalCommand)

/-- `ERR = (ERR_CODE != 0)` (R33). -/
def err (s : State) : Bool := s.errCode.isSome

/-- The command channel accepts a command exactly when `BUSY = 0` and `FATAL = 0` (R35, R190). -/
def accepts (s : State) : Bool := !busy s && !fatal s

/-- `DLEN`, derived from `CFG` (R25); for `CFG = NONE` the spec gives no value (assumption 5). -/
def dlen : Option Width → Nat
  | some .w512 => 64
  | some .w256 => 32
  | none => Config.dlenUnconfigured

/-- The level outputs of the core (R12; 92_eei_decisions.md D2). -/
structure Outputs where
  busy : Bool
  done : Bool
  err : Bool
  errCode : BitVec 2
  errInfo : Word64
  cfg : BitVec 2
  dlen : Nat
  /-- The digest lanes `DIGEST[0 .. DLEN-1]` while `DONE = 1`; nothing otherwise. -/
  digest : Option (List Byte)
  deriving DecidableEq, Repr

/-- What the host observes of the core (R12). Reading changes nothing (R193). -/
def outputs (s : State) : Outputs where
  busy := busy s
  done := s.done
  err := err s
  errCode := errCodeBits s.errCode
  errInfo := s.errInfo
  cfg := cfgCode s.cfg
  dlen := dlen s.cfg
  digest := if s.done then some (s.digest.toList.take (dlen s.cfg)) else none

/-- The byte the host's read number `read` finds on lane `j`: the digest byte while `DONE = 1` and `j < DLEN`, and an
unspecified byte at any other time or place (R25, R193, R237, U2, U3), the same for every core (assumption 20). -/
def laneSeen (read : Nat) (s : State) (j : Fin 64) : Byte :=
  if s.done = true ∧ j.val < dlen s.cfg then s.digest[j] else Config.unpromisedLane read j.val

end Sys2Proof.Machine
end

