-- ==== Sys2Proof/Machine/Ops.lean ====
section
/-! DEFINITION. The named operations over the message memory and the registers: reading and writing `MSG`
(spec/20_memory.md R50 to R64), error entry and the recovery from it (spec/60_exceptions.md R206, R209), the reset action
(spec/70_reset_and_hazards.md R230), and the acceptance of a command (spec/45_host_commands.md R190). -/

namespace Sys2Proof.Machine

/-! ### The message memory -/

/-- The offsets rise strictly from `lo` on and lie in the `MSG` space. -/
def Memory.wfFrom (lo : Nat) : Memory → Bool
  | [] => true
  | (a, _) :: rest => decide (lo ≤ a) && decide (a < Config.messageSpace) && Memory.wfFrom (a + 1) rest

/-- The canonical form: strictly rising offsets below 2^64. No entry can equal what an unlisted offset reads as, since
that is no byte. -/
def Memory.wf (m : Memory) : Bool := Memory.wfFrom 0 m

/-- The byte at an offset; none where the memory cannot supply it. -/
def Memory.byteAt (a : Nat) : Memory → Option Byte
  | [] => none
  | (a', b) :: rest => if a' = a then some b else Memory.byteAt a rest

/-- The memory with byte `b` at offset `a`. -/
def Memory.put (a : Nat) (b : Byte) : Memory → Memory
  | [] => [(a, b)]
  | (a', b') :: rest =>
    if a < a' then (a, b) :: (a', b') :: rest
    else if a = a' then (a, b) :: rest
    else (a', b') :: Memory.put a b rest

/-- Write one byte; an offset of 2^64 or more does not exist (R50), so nothing is written there. -/
def Memory.write (m : Memory) (a : Nat) (b : Byte) : Memory :=
  if a < Config.messageSpace then m.put a b else m

/-- The memory without a byte at offset `a`. -/
def Memory.erase (a : Nat) : Memory → Memory
  | [] => []
  | (a', b') :: rest => if a' = a then rest else (a', b') :: Memory.erase a rest

/-- Place the bytes at offsets `a`, `a + 1`, .. (R90). -/
def Memory.writeList (m : Memory) (a : Nat) : List Byte → Memory
  | [] => m
  | b :: bs => Memory.writeList (m.write a b) (a + 1) bs

/-- `MemRead(MSG, addr, n)`: the `n` bytes in natural order, or none for the answer `fault`, given when one of them cannot
be supplied; with `n = 0` no transaction is issued and the answer is the empty sequence (R10, R56). -/
def memRead (m : Memory) (addr : Nat) : Nat → Option (List Byte)
  | 0 => some []
  | n + 1 =>
    match m.byteAt addr, memRead m (addr + 1) n with
    | some b, some bs => some (b :: bs)
    | _, _ => none

/-! ### Errors -/

/-- Error entry, `raise <Error>(info)`: the whole effect of the step that raises it (R206). -/
def raise (e : CoreError) (info : Word64) (s : State) : State :=
  { s with
    errCode := some e
    errInfo := info
    done := false
    phase := .idle
    cfg := if e = .config then none else s.cfg }

/-- Recovery from an error: a valid `CONSTRUCT` clears `ERR_CODE = 1`; there is no other return from an error but reset
(R191, R209, R211). -/
def clearConfigError (e : Option CoreError) : Option CoreError :=
  if e = some .config then none else e

/-! ### Reset -/

/-- The reset action (R230, R232): the control state is set, the data registers, `LEN`, `POS` and `DIGEST` take unspecified
values (free values of a fresh draw), and no datapath operation is wanted (R88). It does not touch `MSG` or the ROM (R233).
DESIGN CHOICE (assumption 20), unsafe: the draw depends on the core's own counter alone, so two cores, or two runs, whose
counters are equal take the same values, where R13 and R216 leave them unrelated. -/
def resetCore (s : State) : State :=
  { s with
    cfg := none
    phase := .idle
    done := false
    errCode := none
    errInfo := 0#64
    h := Config.resetVec (6 * s.draws)
    n := Config.resetVec (6 * s.draws + 1)
    sigma := Config.resetVec (6 * s.draws + 2)
    m := Config.resetVec (6 * s.draws + 3)
    k := Config.resetVec (6 * s.draws + 4)
    t := Config.resetVec (6 * s.draws + 5)
    digest := Vector.ofFn fun j => Config.resetLane s.draws j.val
    len := Config.resetWord (2 * s.draws)
    pos := Config.resetWord (2 * s.draws + 1)
    dp := { s.dp with sel := 0#4 }
    draws := s.draws + 1 }

/-! ### Register writes -/

/-- Write the working registers `T` and `K` (R27). -/
def writeWork (tk : Vec512 × Vec512) (s : State) : State := { s with t := tk.1, k := tk.2 }

/-- Write `H` and the working registers (R21, R27). -/
def writeChaining (h : Vec512) (tk : Vec512 × Vec512) (s : State) : State := { s with h := h, t := tk.1, k := tk.2 }

/-- Write `M`, `N`, `SIGMA` and `POS` (R22 to R24, R30). -/
def writeBlock (m n sigma : Vec512) (pos : Word64) (s : State) : State :=
  { s with m := m, n := n, sigma := sigma, pos := pos }

/-- Write `PHASE` (R31). -/
def enterPhase (p : Phase) (s : State) : State := { s with phase := p }

/-! ### The host's script and the datapath's select -/

/-- The host's next actions are `hs`. -/
def withHost (hs : List HostAction) (s : State) : State := { s with host := hs }

/-- The message memory is `m`. -/
def withMessage (m : Memory) (s : State) : State := { s with msg := m }

/-- No datapath operation is selected any more: `DPSEL = NONE` (R88). -/
def clearSelect (s : State) : State := { s with dp := { s.dp with sel := 0#4 } }

/-! ### Commands -/

/-- A command presented to the channel: its effect where the core accepts it, and no change at all, no error and no queue
where it does not (R190). -/
def offer (s : State) (effect : State) : State := if accepts s then effect else s

end Sys2Proof.Machine
end

