-- ==== Sys2Proof/Machine/Commands.lean ====
section
/-! DEFINITION. The host commands `CONSTRUCT` and `COMPUTE` (spec/45_host_commands.md R190 to R192). -/

namespace Sys2Proof.Machine

/-- The width of a `CONSTRUCT` operand, compared whole (R83); none for every value but 256 and 512. -/
def widthOf (arg : Word64) : Option Width :=
  if arg = 256#64 then some .w256 else if arg = 512#64 then some .w512 else none

/-- The effect of an accepted `CONSTRUCT` (R191). -/
def constructEffect (arg : Word64) (s : State) : State :=
  match widthOf arg with
  | none => raise .config arg s
  | some c => { s with cfg := some c, done := false, errCode := clearConfigError s.errCode }

/-- The effect of an accepted `COMPUTE` (R192). -/
def computeEffect (arg : Word64) (s : State) : State :=
  match s.cfg with
  | none => raise .config 0#64 s
  | some _ => { s with len := arg, done := false, phase := .init }

/-- Host command `CONSTRUCT` (R190, R191). -/
def execConstruct (width : Word64) (s : State) : Host.Outcome State Fault Refusal :=
  .next (offer s (constructEffect width s))

/-- Host command `COMPUTE` (R190, R192). -/
def execCompute (len : Word64) (s : State) : Host.Outcome State Fault Refusal :=
  .next (offer s (computeEffect len s))

end Sys2Proof.Machine
end

