-- ==== Sys2Proof/Machine/Bytes.lean ====
section
/-! DEFINITION. Bytes and word lanes of a `Vec512` (spec/00_scope.md R6, R8, R9). -/

namespace Sys2Proof.Machine

/-- `v[i]`, `i` in 0..63: byte 0 is the most-significant one (R6). -/
def byteOf (v : Vec512) (i : Nat) : Byte := v.extractLsb' (8 * (63 - i)) 8

/-- The number whose base-256 digits are `f 0 .. f (n-1)`, most significant first. -/
def ofBytesUpTo (f : Nat → Byte) : Nat → Vec512
  | 0 => 0#512
  | n + 1 => (ofBytesUpTo f n <<< 8) ||| (f n).setWidth 512

/-- The `Vec512` with `v[i] = f i` (R6). -/
def ofBytes (f : Nat → Byte) : Vec512 := ofBytesUpTo f 64

/-- Word lane `W(v,k)`, `k` in 0..7: bytes `v[8k..8k+7]`, most-significant byte first (R8). -/
def laneOf (v : Vec512) (k : Nat) : Word64 := v.extractLsb' (64 * (7 - k)) 64

/-- The number whose base-2^64 digits are `f 0 .. f (n-1)`, most significant first. -/
def ofLanesUpTo (f : Nat → Word64) : Nat → Vec512
  | 0 => 0#512
  | n + 1 => (ofLanesUpTo f n <<< 64) ||| (f n).setWidth 512

/-- The `Vec512` whose word lane `k` is `f k`, each lane written most-significant byte first (R8, R123). -/
def ofLanes (f : Nat → Word64) : Vec512 := ofLanesUpTo f 8

/-- `bitpos(w,i)`: bit position 0 is the bit of weight 2^63 (R8). -/
def bitPos (w : Word64) (i : Nat) : Bool := w.getLsbD (63 - i)

/-- `vec(n)` for `n < 2^512` (R6). -/
def vec (n : Nat) : Vec512 := BitVec.ofNat 512 n

end Sys2Proof.Machine
end

