-- ==== Sys2Proof/Machine/Operands.lean ====
section
/-! DEFINITION. The operands of stages (spec/44_scheduler_finalizer.md R163) and of datapath operations
(spec/30_encoding.md R86), and the read transaction a stage issues (spec/20_memory.md R56, R64). -/

namespace Sys2Proof.Machine

/-- `rem = LEN - POS` (R163), a difference of naturals: never negative (R30). -/
def remaining (s : State) : Nat := s.len.toNat - s.pos.toNat

/-- `LEN - POS >= 64`: in phase `ABSORB` the step is `FULL` and not `TAIL` (R163). -/
def fullBlockDue (s : State) : Bool := decide (64 ≤ remaining s)

/-- The transaction `(addr, n)` the next stage issues on the message read port; none where it issues none (R56, R64). -/
def messageRequest (s : State) : Option (Nat × Nat) :=
  if s.phase = .absorb then
    if 64 ≤ remaining s then some (s.pos.toNat, 64)
    else if remaining s = 0 then none
    else some (s.pos.toNat, remaining s)
  else none

/-- The operand `b[0..63]` of `INGEST` on the datapath's byte input (R161). -/
def blockOperand (s : State) : List Byte := s.dp.bytes.toList

/-- The operand `b[0..L-1]` of `PAD` on the datapath's byte input, `L` being the count input (R162). -/
def tailOperand (s : State) : List Byte := s.dp.bytes.toList.take s.dp.count.val

/-- Give a result on the datapath's output; no register is written (R125). -/
def dpReturn (r : DpResult) (s : State) : State := { s with dp := { s.dp with result := r } }

end Sys2Proof.Machine
end

