-- ==== Sys2Proof/Machine/Boundary.lean ====
section
/-! DEFINITION. The byte-order operations at the boundary: `INGEST`, `PAD`, `REV512`, `TRUNC256`
(spec/44_scheduler_finalizer.md R161, R162, R169, R170). No other operation reverses bytes (R7, R239). -/

namespace Sys2Proof.Machine

/-- `INGEST(b)` of 64 bytes: `r[i] = b[63-i]` (R161). -/
def ingest (b : List Byte) : Vec512 := ofBytes fun i => b.getD (63 - i) 0x00#8

/-- `PAD(b, L)`, `L` the length of `b`, 0 to 63: the tail at `r[64-L .. 63]`, reversed, the terminator 0x01 at `r[63-L]`,
zero bytes elsewhere (R162). -/
def pad (b : List Byte) : Vec512 :=
  ofBytes fun i =>
    if i = 63 - b.length then 0x01#8
    else if 63 - i < b.length then b.getD (63 - i) 0x00#8
    else 0x00#8

/-- `REV512(h)`: `d[j] = h[63-j]` (R169). -/
def rev512 (h : Vec512) : Vector Byte 64 := Vector.ofFn fun j => byteOf h (63 - j.val)

/-- `TRUNC256(h)`: `d[j] = h[j]`, `j` in 0..31 (R170). -/
def trunc256 (h : Vec512) : Vector Byte 32 := Vector.ofFn fun j => byteOf h j.val

/-- Datapath operation `INGEST` (R161). -/
def execIngest (s : State) : Host.Outcome State Fault Refusal :=
  .next (dpReturn (.vec (ingest (blockOperand s))) s)

/-- Datapath operation `PAD` (R162). -/
def execPad (s : State) : Host.Outcome State Fault Refusal :=
  .next (dpReturn (.vec (pad (tailOperand s))) s)

/-- Datapath operation `REV512` (R169). -/
def execRev512 (s : State) : Host.Outcome State Fault Refusal :=
  .next (dpReturn (.bytes (rev512 s.dp.opA).toList) s)

/-- Datapath operation `TRUNC256` (R170). -/
def execTrunc256 (s : State) : Host.Outcome State Fault Refusal :=
  .next (dpReturn (.bytes (trunc256 s.dp.opA).toList) s)

end Sys2Proof.Machine
end

