-- ==== Sys2Proof/Machine/Rom.lean ====
section
/-! DEFINITION. The constant ROM (spec/40_constants_rom.md R100 to R109). No operation writes it (R108), so it is no part of State. -/

namespace Sys2Proof.Machine

/-- The rows of `ROM.SBOX`, by the high hexadecimal digit of the index, column 0 first (R101). -/
def romSboxRow : Nat → BitVec 128
  | 0 => 0xfceedd11cf6e3116fbc4fada23c5044d#128
  | 1 => 0xe977f0db932e99ba1736f1bb14cd5fc1#128
  | 2 => 0xf918655ae25cef21811c3c428b018e4f#128
  | 3 => 0x058402aee36a8fa0060bed987fd4d31f#128
  | 4 => 0xeb342c51eac848abf22a68a2fd3acecc#128
  | 5 => 0xb5700e56080c7612bf7213479cb75d87#128
  | 6 => 0x15a19629107b9ac7f391786f9d9eb2b1#128
  | 7 => 0x3275193dff358a7e6d54c680c3bd0d57#128
  | 8 => 0xdff524a93ea843c9d779d6f67c22b903#128
  | 9 => 0xe00fecde7a94b0bcdce828504e330a4a#128
  | 10 => 0xa79760731e0062441ab83882649f2641#128
  | 11 => 0xad454692275e552f8ca3a57d69d5953b#128
  | 12 => 0x0758b34086ac1df730376be488d9e789#128
  | 13 => 0xe11b83494c3ff8fe8d53aa90cad88561#128
  | 14 => 0x207167a42d2b095bcb9b25d0bee56c52#128
  | _ => 0x59a674d2e6f4b4c0d166afc2394b63b6#128

/-- `ROM.SBOX[x]`: the row of the high hexadecimal digit of `x`, the column of the low one (R101). -/
def romSbox (x : Byte) : Byte := (romSboxRow (x.toNat / 16)).extractLsb' (8 * (15 - x.toNat % 16)) 8

/-- `ROM.TAU[j]`, the transpose of the 8 by 8 byte matrix (R102). -/
def romTau (j : Nat) : Nat := 8 * (j % 8) + j / 8

/-- The rows of the table of `ROM.A`, four coefficients each (R103). -/
def romARow : Nat → BitVec 256
  | 0 => 0x8e20faa72ba0b470_47107ddd9b505a38_ad08b0e0c3282d1c_d8045870ef14980e#256
  | 1 => 0x6c022c38f90a4c07_3601161cf205268d_1b8e0b0e798c13c8_83478b07b2468764#256
  | 2 => 0xa011d380818e8f40_5086e740ce47c920_2843fd2067adea10_14aff010bdd87508#256
  | 3 => 0x0ad97808d06cb404_05e23c0468365a02_8c711e02341b2d01_46b60f011a83988e#256
  | 4 => 0x90dab52a387ae76f_486dd4151c3dfdb9_24b86a840e90f0d2_125c354207487869#256
  | 5 => 0x092e94218d243cba_8a174a9ec8121e5d_4585254f64090fa0_accc9ca9328a8950#256
  | 6 => 0x9d4df05d5f661451_c0a878a0a1330aa6_60543c50de970553_302a1e286fc58ca7#256
  | 7 => 0x18150f14b9ec46dd_0c84890ad27623e0_0642ca05693b9f70_0321658cba93c138#256
  | 8 => 0x86275df09ce8aaa8_439da0784e745554_afc0503c273aa42a_d960281e9d1d5215#256
  | 9 => 0xe230140fc0802984_71180a8960409a42_b60c05ca30204d21_5b068c651810a89e#256
  | 10 => 0x456c34887a3805b9_ac361a443d1c8cd2_561b0d22900e4669_2b838811480723ba#256
  | 11 => 0x9bcf4486248d9f5d_c3e9224312c8c1a0_effa11af0964ee50_f97d86d98a327728#256
  | 12 => 0xe4fa2054a80b329c_727d102a548b194e_39b008152acb8227_9258048415eb419d#256
  | 13 => 0x492c024284fbaec0_aa16012142f35760_550b8e9e21f7a530_a48b474f9ef5dc18#256
  | 14 => 0x70a6a56e2440598e_3853dc371220a247_1ca76e95091051ad_0edd37c48a08a6d8#256
  | _ => 0x07e095624504536c_8d70c431ac02a736_c83862965601dd1b_641c314b2b8ee083#256

/-- `ROM.A[i]`, the coefficient of bit position `i`, `i` in 0..63 (R103). -/
def romA (i : Nat) : Word64 := (romARow (i / 4)).extractLsb' (64 * (3 - i % 4)) 64

/-- `ROM.C[r]` for round `r` in 1..12, the round held as `r - 1` (R104). -/
def romC (r : Fin 12) : Vec512 :=
  match r.val with
  | 0 => 0xb1085bda1ecadae9ebcb2f81c0657c1f2f6a76432e45d016714eb88d7585c4fc4b7ce09192676901a2422a08a460d31505767436cc744d23dd806559f2a64507#512
  | 1 => 0x6fa3b58aa99d2f1a4fe39d460f70b5d7f3feea720a232b9861d55e0f16b501319ab5176b12d699585cb561c2db0aa7ca55dda21bd7cbcd56e679047021b19bb7#512
  | 2 => 0xf574dcac2bce2fc70a39fc286a3d843506f15e5f529c1f8bf2ea7514b1297b7bd3e20fe490359eb1c1c93a376062db09c2b6f443867adb31991e96f50aba0ab2#512
  | 3 => 0xef1fdfb3e81566d2f948e1a05d71e4dd488e857e335c3c7d9d721cad685e353fa9d72c82ed03d675d8b71333935203be3453eaa193e837f1220cbebc84e3d12e#512
  | 4 => 0x4bea6bacad4747999a3f410c6ca923637f151c1f1686104a359e35d7800fffbdbfcd1747253af5a3dfff00b723271a167a56a27ea9ea63f5601758fd7c6cfe57#512
  | 5 => 0xae4faeae1d3ad3d96fa4c33b7a3039c02d66c4f95142a46c187f9ab49af08ec6cffaa6b71c9ab7b40af21f66c2bec6b6bf71c57236904f35fa68407a46647d6e#512
  | 6 => 0xf4c70e16eeaac5ec51ac86febf240954399ec6c7e6bf87c9d3473e33197a93c90992abc52d822c3706476983284a05043517454ca23c4af38886564d3a14d493#512
  | 7 => 0x9b1f5b424d93c9a703e7aa020c6e41414eb7f8719c36de1e89b4443b4ddbc49af4892bcb929b069069d18d2bd1a5c42f36acc2355951a8d9a47f0dd4bf02e71e#512
  | 8 => 0x378f5a541631229b944c9ad8ec165fde3a7d3a1b258942243cd955b7e00d0984800a440bdbb2ceb17b2b8a9aa6079c540e38dc92cb1f2a607261445183235adb#512
  | 9 => 0xabbedea680056f52382ae548b2e4f3f38941e71cff8a78db1fffe18a1b3361039fe76702af69334b7a1e6c303b7652f43698fad1153bb6c374b4c7fb98459ced#512
  | 10 => 0x7bcd9ed0efc889fb3002c6cd635afe94d8fa6bbbebab076120018021148466798a1d71efea48b9caefbacd1d7d476e98dea2594ac06fd85d6bcaa4cd81f32d1b#512
  | _ => 0x378ee767f11631bad21380b00449b17acda43c32bcdf1d77f82012d430219f9b5d80ef9d1891cc86e71da4aa88e12852faf417d5d9b21b9948bc924af11bd720#512

/-- `ROM.IV[width]`: 64 bytes 0x00 for 512, 64 bytes 0x01 for 256 (R105). -/
def romIV : Width → Vec512
  | .w512 => 0#512
  | .w256 => ofBytes fun _ => 0x01#8

/-- `ROM.INC512`: byte `[62] = 0x02`, every other byte 0x00 (R106). -/
def romInc512 : Vec512 := ofBytes fun i => if i = 62 then 0x02#8 else 0x00#8

/-- `ROM.ZERO512`, a word of its own (R107). -/
def romZero512 : Vec512 := 0#512

end Sys2Proof.Machine
end

