-- ==== Sys2Proof/Machine/Transform.lean ====
section
/-! DEFINITION. The block transform datapath `X`, `S`, `P`, `L`, `ADD512` (spec/41_block_transform.md R120 to R125). -/

namespace Sys2Proof.Machine

/-- `X(a, b)`: byte-wise exclusive or, which is the bitwise exclusive or of the numbers (R120). -/
def xor512 (a b : Vec512) : Vec512 := a ^^^ b

/-- `S(a)`: the substitution box on every byte (R121). -/
def sub512 (a : Vec512) : Vec512 := ofBytes fun i => romSbox (byteOf a i)

/-- `P(a)`: `r[j] = a[TAU[j]]` (R122). -/
def perm512 (a : Vec512) : Vec512 := ofBytes fun j => byteOf a (romTau j)

/-- `l64(w)`: the exclusive or of the coefficients of the set bit positions (R123). -/
def lin64 (w : Word64) : Word64 :=
  (List.range 64).foldl (fun r i => if bitPos w i then r ^^^ romA i else r) 0#64

/-- `L(a)`: `l64` on each word lane, word order preserved (R123). -/
def lin512 (a : Vec512) : Vec512 := ofLanes fun k => lin64 (laneOf a k)

/-- `ADD512(a, b)`: `int(r) = (int(a) + int(b)) mod 2^512` (R124). -/
def add512 (a b : Vec512) : Vec512 := a + b

/-- The loop of R124: the carry into byte `i - 1`, after the bytes `63 .. i` have been added. -/
def addCarry (a b : Vec512) : Nat → Nat
  | 0 => 0
  | n + 1 => ((byteOf a (63 - n)).toNat + (byteOf b (63 - n)).toNat + addCarry a b n) / 256

/-- The loop of R124: byte `i` of the sum, from the carry out of the bytes below it. -/
def addByte (a b : Vec512) (i : Nat) : Byte :=
  BitVec.ofNat 8 ((byteOf a i).toNat + (byteOf b i).toNat + addCarry a b (63 - i))

/-- Datapath operation `X` (R120, R125). -/
def execX (s : State) : Host.Outcome State Fault Refusal :=
  .next (dpReturn (.vec (xor512 s.dp.opA s.dp.opB)) s)

/-- Datapath operation `S` (R121, R125). -/
def execS (s : State) : Host.Outcome State Fault Refusal :=
  .next (dpReturn (.vec (sub512 s.dp.opA)) s)

/-- Datapath operation `P` (R122, R125). -/
def execP (s : State) : Host.Outcome State Fault Refusal :=
  .next (dpReturn (.vec (perm512 s.dp.opA)) s)

/-- Datapath operation `L` (R123, R125). -/
def execL (s : State) : Host.Outcome State Fault Refusal :=
  .next (dpReturn (.vec (lin512 s.dp.opA)) s)

/-- Datapath operation `ADD512` (R124, R125); the last carry is dropped and no status bit is written (R36). -/
def execAdd512 (s : State) : Host.Outcome State Fault Refusal :=
  .next (dpReturn (.vec (add512 s.dp.opA s.dp.opB)) s)

end Sys2Proof.Machine
end

