-- ==== Sys2Proof/Machine/Cipher.lean ====
section
/-! DEFINITION. The keyed round function: `LPS`, `KEYSTEP`, `ROUND`, `E` (spec/42_keyed_round_function.md R140 to R144). A
round number `r` in 1..12 is held as `r - 1`. -/

namespace Sys2Proof.Machine

/-- `LPS(a) = L(P(S(a)))` (R140). -/
def lps (a : Vec512) : Vec512 := lin512 (perm512 (sub512 a))

/-- `KEYSTEP(Kr, r) = LPS(X(Kr, ROM.C[r]))` (R141). -/
def keyStep (kr : Vec512) (r : Fin 12) : Vec512 := lps (xor512 kr (romC r))

/-- `ROUND(t, Kr, r)`: the pair of the state after the round and the next key (R142). -/
def roundStep (tk : Vec512 × Vec512) (r : Fin 12) : Vec512 × Vec512 :=
  (xor512 (lps tk.1) (keyStep tk.2 r), keyStep tk.2 r)

/-- `E(K1, m)` with the contents `(T, K)` of the working registers after it: `T` is the result and `K` is `K_13` (R143,
R144). -/
def cipher (k1 m : Vec512) : Vec512 × Vec512 :=
  (List.finRange 12).foldl roundStep (xor512 m k1, k1)

/-- Datapath operation `LPS` (R140). -/
def execLps (s : State) : Host.Outcome State Fault Refusal :=
  .next (dpReturn (.vec (lps s.dp.opA)) s)

/-- Datapath operation `KEYSTEP`: operand A the round key, the round input the round number (R141). -/
def execKeystep (s : State) : Host.Outcome State Fault Refusal :=
  .next (dpReturn (.vec (keyStep s.dp.opA s.dp.round)) s)

/-- Datapath operation `ROUND`: operand A the cipher state, operand B the round key (R142). -/
def execRound (s : State) : Host.Outcome State Fault Refusal :=
  .next (dpReturn (.pair (roundStep (s.dp.opA, s.dp.opB) s.dp.round).1
    (roundStep (s.dp.opA, s.dp.opB) s.dp.round).2) s)

/-- Datapath operation `E`: operand A the key, operand B the block; the working registers `T` and `K` are written (R143). -/
def execE (s : State) : Host.Outcome State Fault Refusal :=
  .next (dpReturn (.vec (cipher s.dp.opA s.dp.opB).1)
    (writeWork (cipher s.dp.opA s.dp.opB) s))

end Sys2Proof.Machine
end

