-- ==== Sys2Proof/Machine/Compression.lean ====
section
/-! DEFINITION. The compression function `G` (spec/43_compression.md R150, R151). -/

namespace Sys2Proof.Machine

/-- The working registers `(T, K)` after `G(h, n, m)`: those of `E` under the key `LPS(X(h, n))` (R150). -/
def compressWork (h n m : Vec512) : Vec512 × Vec512 := cipher (lps (xor512 h n)) m

/-- `G(h, n, m) = X(X(t, h), m)` with `t = E(LPS(X(h, n)), m)` (R150). -/
def compress (h n m : Vec512) : Vec512 := xor512 (xor512 (compressWork h n m).1 h) m

/-- `H <- G(H, n, m)`, with the working registers `G` writes (R27, R150). -/
def compressInto (n m : Vec512) (s : State) : State :=
  writeChaining (compress s.h n m) (compressWork s.h n m) s

/-- Datapath operation `G`: operands A, B, C are `h`, `n`, `m`; the working registers `T` and `K` are written, `H` is not
(R150). -/
def execG (s : State) : Host.Outcome State Fault Refusal :=
  .next (dpReturn (.vec (compress s.dp.opA s.dp.opB s.dp.opC))
    (writeWork (compressWork s.dp.opA s.dp.opB s.dp.opC) s))

end Sys2Proof.Machine
end

