-- ==== Sys2Proof/Machine/Stages.lean ====
section
/-! DEFINITION. The six controller stages (spec/44_scheduler_finalizer.md R160 to R168, R172). All right-hand sides read the
state before the stage and all writes happen together (R10). -/

namespace Sys2Proof.Machine

/-- A stage runs where its condition holds (R85, R163); the controller has no such step elsewhere. -/
def whenDue (due : Bool) (t : State) : Host.Outcome State Fault Refusal :=
  if due then .next t else .fault .stageNotDue

/-- The initial chaining value `ROM.IV[CFG]`; `CFG = NONE` never stands here in a run (R160) and is no index of `ROM.IV`,
so the value is free (assumption 5). -/
def initialChaining : Option Width → Vec512
  | some w => romIV w
  | none => Config.ivUnconfigured

/-- The effect of `INIT` (R160). -/
def initStage (s : State) : State :=
  { s with
    h := initialChaining s.cfg
    n := romZero512
    sigma := romZero512
    pos := 0#64
    phase := .absorb }

/-- Absorb the block `m` of `l` message bytes with counter increment `inc`: what `FULL` and `TAIL` have in common (R164,
R165). The compression uses the counter before the block. -/
def absorbBlock (m inc : Vec512) (l : Nat) (s : State) : State :=
  writeBlock m (add512 s.n inc) (add512 s.sigma m) (s.pos + BitVec.ofNat 64 l) (compressInto s.n m s)

/-- The effect of `FULL` (R164); a read fault raises `INVARIANT_VIOLATION(POS)` and nothing else (R202, R207). -/
def fullStage (s : State) : State :=
  match memRead s.msg s.pos.toNat 64 with
  | none => raise .invariantViolation s.pos s
  | some b => enterPhase .absorb (absorbBlock (ingest b) romInc512 64 s)

/-- The effect of `TAIL` (R165), `L = LEN - POS`. -/
def tailStage (s : State) : State :=
  match memRead s.msg s.pos.toNat (remaining s) with
  | none => raise .invariantViolation s.pos s
  | some b => enterPhase .finN (absorbBlock (pad b) (vec (8 * remaining s)) (remaining s) s)

/-- The effect of `FIN_N`: counter operand zero, message operand the bit count (R166). -/
def finNStage (s : State) : State := enterPhase .finS (compressInto romZero512 s.n s)

/-- The effect of `FIN_S`: counter operand zero, message operand the checksum (R167). -/
def finSStage (s : State) : State := enterPhase .out (compressInto romZero512 s.sigma s)

/-- Lane `j` of `DIGEST` after `OUT` at width 256: the truncated chaining value, and unspecified lanes above it (R168). Two
cores with equal draw counters find the same bytes there: DESIGN CHOICE (assumption 20), unsafe. -/
def digest256 (s : State) : Vector Byte 64 :=
  Vector.ofFn fun j => if h : j.val < 32 then (trunc256 s.h)[j.val] else Config.upperLane s.draws j.val

/-- The effect of `OUT` (R168); with `CFG = NONE` neither of its two cases writes a lane. -/
def outStage (s : State) : State :=
  match s.cfg with
  | some .w512 => { s with digest := rev512 s.h, done := true, phase := .idle }
  | some .w256 => { s with digest := digest256 s, done := true, phase := .idle, draws := s.draws + 1 }
  | none => { s with done := true, phase := .idle }

/-- Stage `INIT` (R160). -/
def execInit (s : State) : Host.Outcome State Fault Refusal :=
  whenDue (decide (s.phase = .init)) (initStage s)

/-- Stage `FULL` (R163, R164). -/
def execFull (s : State) : Host.Outcome State Fault Refusal :=
  whenDue (decide (s.phase = .absorb) && fullBlockDue s) (fullStage s)

/-- Stage `TAIL` (R163, R165). -/
def execTail (s : State) : Host.Outcome State Fault Refusal :=
  whenDue (decide (s.phase = .absorb) && !fullBlockDue s) (tailStage s)

/-- Stage `FIN_N` (R166). -/
def execFinN (s : State) : Host.Outcome State Fault Refusal :=
  whenDue (decide (s.phase = .finN)) (finNStage s)

/-- Stage `FIN_S` (R167). -/
def execFinS (s : State) : Host.Outcome State Fault Refusal :=
  whenDue (decide (s.phase = .finS)) (finSStage s)

/-- Stage `OUT` (R168). -/
def execOut (s : State) : Host.Outcome State Fault Refusal :=
  whenDue (decide (s.phase = .out)) (outStage s)

end Sys2Proof.Machine
end

