-- ==== Sys2Proof/Machine/Dispatch.lean ====
section
/-! DEFINITION. The meaning of every operation, one arm per constructor of `Instr`. -/

namespace Sys2Proof.Machine

/-- The meaning of an operation (spec/30_encoding.md R80). -/
def exec (i : Instr) (s : State) : Host.Outcome State Fault Refusal :=
  match i with
  | .construct width => Sys2Proof.Machine.execConstruct width s
  | .compute len => Sys2Proof.Machine.execCompute len s
  | .init => Sys2Proof.Machine.execInit s
  | .full => Sys2Proof.Machine.execFull s
  | .tail => Sys2Proof.Machine.execTail s
  | .finN => Sys2Proof.Machine.execFinN s
  | .finS => Sys2Proof.Machine.execFinS s
  | .out => Sys2Proof.Machine.execOut s
  | .x => Sys2Proof.Machine.execX s
  | .s => Sys2Proof.Machine.execS s
  | .p => Sys2Proof.Machine.execP s
  | .l => Sys2Proof.Machine.execL s
  | .add512 => Sys2Proof.Machine.execAdd512 s
  | .lps => Sys2Proof.Machine.execLps s
  | .keystep => Sys2Proof.Machine.execKeystep s
  | .round => Sys2Proof.Machine.execRound s
  | .e => Sys2Proof.Machine.execE s
  | .g => Sys2Proof.Machine.execG s
  | .ingest => Sys2Proof.Machine.execIngest s
  | .pad => Sys2Proof.Machine.execPad s
  | .rev512 => Sys2Proof.Machine.execRev512 s
  | .trunc256 => Sys2Proof.Machine.execTrunc256 s

end Sys2Proof.Machine
end

