-- ==== Sys2Proof/Machine/Fetch.lean ====
section
/-! DEFINITION. What the next step of the machine is: the reset input, a selected datapath operation, the host's step, or the
controller's stage (spec/00_scope.md R11; spec/44_scheduler_finalizer.md R172; spec/45_host_commands.md R190). There is no
instruction fetch (R63); a command word comes from the command channel, a stage from `PHASE`, a datapath operation from
`DPSEL`. -/

namespace Sys2Proof.Machine

/-- A command word presented on the channel: acceptance comes before decode; an accepted word with an illegal opcode raises
`ILLEGAL_COMMAND(zext_64(OP))` (R87, R190, R203, R208). -/
def presentCommand (w : CmdWord) (s : State) : Host.Outcome State Fault Refusal :=
  if accepts s then
    match decodeCommand w with
    | .ok i => exec i s
    | .error _ => .next (raise .illegalCommand ((opField w).setWidth 64) s)
  else .next s

/-- The controller's step: the stage `PHASE` selects; in `IDLE` it takes none and the state stays as it is (R31, R85,
R163). -/
def controllerStep (s : State) : Host.Outcome State Fault Refusal :=
  match decodeStage (phaseCode s.phase) (fullBlockDue s) with
  | .ok i => exec i s
  | .error _ => .next s

/-- The host's step where it takes one, and the controller's where the host takes none (assumption 6). -/
def hostStep (s : State) : Host.Outcome State Fault Refusal :=
  match s.host with
  | [] => controllerStep s
  | .reset :: rest => .next (resetCore (withHost rest s))
  | .command w :: rest => presentCommand w (withHost rest s)
  | .hold w :: rest => if accepts s then presentCommand w (withHost rest s) else controllerStep s
  | .message bs :: rest => .next (withMessage (s.msg.writeList 0 bs) (withHost rest s))
  | .write a b :: rest => .next (withMessage (s.msg.write a.toNat b) (withHost rest s))
  | .withdraw a :: rest => .next (withMessage (s.msg.erase a.toNat) (withHost rest s))
  | .pass :: rest => controllerStep (withHost rest s)
  | .wait :: rest => if busy s then controllerStep s else .next (withHost rest s)

/-- The host is asserting reset. -/
def resetAsserted (s : State) : Bool :=
  match s.host with
  | .reset :: _ => true
  | _ => false

/-- One step of the machine. Reset takes precedence over everything (R208, R230); then a datapath operation selected by
`DPSEL` runs by itself (assumption 7; no stage leaves one selected); then the host's or the controller's step. -/
def nextStep (s : State) : Host.Outcome State Fault Refusal :=
  if resetAsserted s then hostStep s
  else
    match decodeSelect s.dp.sel with
    | .ok i => exec i (clearSelect s)
    | .error .noOperation => hostStep s
    | .error _ => .fault .reservedDatapathSelect

/-- The state in which the next step is the operation of a code word: a command word is presented by the host to a core that
accepts it, a stage code is in `PHASE`, a select code is in `DPSEL`. For code `ABSORB`, `LEN` and `POS` are changed only where
the state's own would choose the other of `FULL` and `TAIL`. -/
def placeCode (s : State) : CodeWord → State
  | .command w =>
    { clearSelect s with
      phase := .idle
      errCode := if fatal s then none else s.errCode
      host := [.command w] }
  | .stage code fullBlock =>
    { clearSelect s with
      phase := (phaseOfCode code).getD s.phase
      len := if code = 0b010#3 ∧ fullBlock ≠ fullBlockDue s then (if fullBlock then 64#64 else s.pos) else s.len
      pos := if code = 0b010#3 ∧ fullBlock = true ∧ fullBlockDue s = false then 0#64 else s.pos
      host := [] }
  | .datapath sel => { s with dp := { s.dp with sel := sel }, host := [] }

/-- The same for a number of the opcode table. -/
def placeTableWord (s : State) (nbits w : Nat) : State :=
  match tableCode nbits w with
  | some c => placeCode s c
  | none => s

end Sys2Proof.Machine
end

