-- ==== Sys2Proof/Machine/Step.lean ====
section
/-! DEFINITION. The step of the machine, and the state that runs a given opcode-table word next. -/

namespace Sys2Proof.Machine

/-- One step: a reset, a datapath operation, a host step or a controller stage (spec/00_scope.md R11). -/
def step (s : State) : Host.Outcome State Fault Refusal := Sys2Proof.Machine.nextStep s

/-- The state whose very next step runs the instruction of the opcode-table word (assumptions 6 and 8). -/
def State.withFetchWord (s : State) (nbits w : Nat) : State := Sys2Proof.Machine.placeTableWord s nbits w

end Sys2Proof.Machine
end

