-- ==== Sys2Proof/Machine/Cores.lean ====
section
/-! DEFINITION. Several cores side by side (spec/60_exceptions.md R216): each has its own complete state, command channel,
message port, outputs and reset; they share nothing but the ROM, which is no state. -/

namespace Sys2Proof.Machine

/-- Core number `c` of several takes one step; the others take none. With no core of that number nothing happens. The cores
share no state, but each draws its unspecified values by its own counter from the same free values, so cores with equal
counters draw equal values: DESIGN CHOICE (assumption 20), unsafe. -/
def stepCore (c : Nat) (cores : List State) : Host.Outcome (List State) Fault Refusal :=
  match cores[c]? with
  | none => .next cores
  | some s =>
    match step s with
    | .next t => .next (cores.set c t)
    | .fault r => .fault r
    | .refused r => .refused r

end Sys2Proof.Machine
end

