-- ==== Sys2Proof/Machine/Script.lean ====
section
/-! DEFINITION. The script syntax of host actions and its pseudo-commands (spec/30_encoding.md R90, R91). -/

namespace Sys2Proof.Machine

/-- A line of a host script (R90) or a pseudo-command (R91). -/
inductive ScriptLine where
  | reset
  | construct (width : Word64)
  | compute (len : Word64)
  | raw (op : BitVec 8) (arg : Word64)
  | msg (bs : List Byte)
  | wait
  | hash (width len : Word64)
  | hash256 (len : Word64)
  | hash512 (len : Word64)
  deriving DecidableEq, Repr

/-- The pseudo-command `HASH <width>, <len>` (R91). -/
def hashActions (width len : Word64) : List HostAction :=
  [.command (commandWord 0x01#8 width), .command (commandWord 0x02#8 len), .wait]

/-- The host actions a line stands for (R90, R91). -/
def ScriptLine.actions : ScriptLine → List HostAction
  | .reset => [.reset]
  | .construct width => [.command (commandWord 0x01#8 width)]
  | .compute len => [.command (commandWord 0x02#8 len)]
  | .raw op arg => [.command (commandWord op arg)]
  | .msg bs => [.message bs]
  | .wait => [.wait]
  | .hash width len => hashActions width len
  | .hash256 len => hashActions 256#64 len
  | .hash512 len => hashActions 512#64 len

/-- The text of a line before its comment (R90). -/
def stripComment : List Char → List Char
  | [] => []
  | c :: cs => if c = ';' then [] else c :: stripComment cs

/-- The words of a line, separated by blanks and commas; `cur` is the word being read, last character first. -/
def scriptWords (cur : List Char) : List Char → List (List Char)
  | [] => if cur.isEmpty then [] else [cur.reverse]
  | c :: cs =>
    if c = ' ' ∨ c = ',' ∨ c = '\t' then
      if cur.isEmpty then scriptWords [] cs else cur.reverse :: scriptWords [] cs
    else scriptWords (c :: cur) cs

/-- The value of a hexadecimal digit. -/
def digitValue (c : Char) : Option Nat :=
  if '0'.toNat ≤ c.toNat ∧ c.toNat ≤ '9'.toNat then some (c.toNat - '0'.toNat)
  else if 'a'.toNat ≤ c.toNat ∧ c.toNat ≤ 'f'.toNat then some (c.toNat - 'a'.toNat + 10)
  else if 'A'.toNat ≤ c.toNat ∧ c.toNat ≤ 'F'.toNat then some (c.toNat - 'A'.toNat + 10)
  else none

/-- The number with the given digits after those of `acc`, most significant first. -/
def digitsValue (base acc : Nat) : List Char → Option Nat
  | [] => some acc
  | c :: cs =>
    match digitValue c with
    | some d => if d < base then digitsValue base (acc * base + d) cs else none
    | none => none

/-- A number, decimal or `0x` hexadecimal (R90), below `bound`: what its field can hold (U11). -/
def scriptNumber (bound : Nat) (cs : List Char) : Option Nat :=
  let value :=
    match cs with
    | '0' :: 'x' :: d :: ds => digitsValue 16 0 (d :: ds)
    | d :: ds => digitsValue 10 0 (d :: ds)
    | [] => none
  match value with
  | some n => if n < bound then some n else none
  | none => none

/-- The bytes of one word, written as pairs of hexadecimal digits (R90). -/
def hexBytes : List Char → Option (List Byte)
  | [] => some []
  | [_] => none
  | hi :: lo :: rest =>
    match digitValue hi, digitValue lo, hexBytes rest with
    | some a, some b, some bs => some (BitVec.ofNat 8 (16 * a + b) :: bs)
    | _, _, _ => none

/-- The bytes of the words of a `MSG` line, each word a row of whole pairs (DESIGN CHOICE, assumption 18). -/
def wordsBytes : List (List Char) → Option (List Byte)
  | [] => some []
  | word :: words =>
    match hexBytes word, wordsBytes words with
    | some bs, some rest => some (bs ++ rest)
    | _, _ => none

/-- The message of a `MSG` line. R90 gives bytes only; program P7 of spec/95_test_vectors.md also writes `MSG 5a x 100`.
DESIGN CHOICE (assumption 18): bytes, the word `x` and a number are that many repetitions of the bytes, and no bytes at all
are the empty message. -/
def messageBytes (words : List (List Char)) : Option (List Byte) :=
  match words with
  | [bytes, ['x'], count] =>
    match hexBytes bytes, scriptNumber Config.messageSpace count with
    | some bs, some n => some (List.replicate n bs).flatten
    | _, _ => none
  | _ => wordsBytes words

/-- A command operand. -/
def scriptOperand (cs : List Char) : Option Word64 := (scriptNumber (2 ^ 64) cs).map (BitVec.ofNat 64)

/-- The line the words stand for (R90; the form of a `MSG` line: assumption 18). -/
def scriptLineOfWords : List (List Char) → Option ScriptLine
  | [] => none
  | kw :: args =>
    match args with
    | [] =>
      if kw = ['R', 'E', 'S', 'E', 'T'] then some .reset
      else if kw = ['W', 'A', 'I', 'T'] then some .wait
      else if kw = ['M', 'S', 'G'] then (messageBytes []).map .msg
      else none
    | a :: rest =>
      if kw = ['M', 'S', 'G'] then (messageBytes (a :: rest)).map .msg
      else
        match rest with
        | [] =>
          if kw = ['C', 'O', 'N', 'S', 'T', 'R', 'U', 'C', 'T'] then (scriptOperand a).map .construct
          else if kw = ['C', 'O', 'M', 'P', 'U', 'T', 'E'] then (scriptOperand a).map .compute
          else if kw = ['H', 'A', 'S', 'H', '2', '5', '6'] then (scriptOperand a).map .hash256
          else if kw = ['H', 'A', 'S', 'H', '5', '1', '2'] then (scriptOperand a).map .hash512
          else none
        | [b] =>
          if kw = ['R', 'A', 'W'] then
            match scriptNumber 256 a, scriptOperand b with
            | some op, some arg => some (.raw (BitVec.ofNat 8 op) arg)
            | _, _ => none
          else if kw = ['H', 'A', 'S', 'H'] then
            match scriptOperand a, scriptOperand b with
            | some width, some len => some (.hash width len)
            | _, _ => none
          else none
        | _ => none

/-- The host actions of one line of text: none for a line that is no line of the syntax, no action for an empty line or a
comment. -/
def parseLine (text : List Char) : Option (List HostAction) :=
  match scriptWords [] (stripComment text) with
  | [] => some []
  | words => (scriptLineOfWords words).map ScriptLine.actions

/-- The host actions of a script, one line of text each (R90). -/
def parseScript : List (List Char) → Option (List HostAction)
  | [] => some []
  | line :: lines =>
    match parseLine line, parseScript lines with
    | some a, some as => some (a ++ as)
    | _, _ => none

end Sys2Proof.Machine
end

