-- ==== Sys2Proof/Machine/Hash.lean ====
section
/-! DEFINITION. The digest as a function of the width and the message (spec/44_scheduler_finalizer.md R173), which the
controller's stages are to compute. -/

namespace Sys2Proof.Machine

/-- `m_j = INGEST(msg[64j .. 64j+63])` (R173). -/
def hashBlock (msg : List Byte) (j : Nat) : Vec512 := ingest ((msg.drop (64 * j)).take 64)

/-- The pair `(h_j, s_j)` after `j` full blocks (R173). -/
def hashChain (w : Width) (msg : List Byte) : Nat → Vec512 × Vec512
  | 0 => (romIV w, vec 0)
  | j + 1 =>
    (compress (hashChain w msg j).1 (vec (512 * j)) (hashBlock msg j),
      add512 (hashChain w msg j).2 (hashBlock msg j))

/-- `m_q = PAD(msg[64q .. len-1], L)`, `q = len div 64` (R173). -/
def hashTail (msg : List Byte) : Vec512 := pad (msg.drop (64 * (msg.length / 64)))

/-- The pair `(h', s')` after the tail (R173). -/
def hashAbsorbed (w : Width) (msg : List Byte) : Vec512 × Vec512 :=
  (compress (hashChain w msg (msg.length / 64)).1 (vec (512 * (msg.length / 64))) (hashTail msg),
    add512 (hashChain w msg (msg.length / 64)).2 (hashTail msg))

/-- `h'''`, after the two finalization compressions (R173). -/
def hashFinal (w : Width) (msg : List Byte) : Vec512 :=
  compress (compress (hashAbsorbed w msg).1 (vec 0) (vec (8 * msg.length))) (vec 0) (hashAbsorbed w msg).2

/-- `HASH(width, msg)`: `width/8` bytes (R173). -/
def streebog (w : Width) (msg : List Byte) : List Byte :=
  match w with
  | .w512 => (rev512 (hashFinal w msg)).toList
  | .w256 => (trunc256 (hashFinal w msg)).toList

end Sys2Proof.Machine
end

