-- ==== Sys2Proof/Safety.lean ====
section
/-! DEFINITION. The invariant every step keeps, the number of stages a computation still takes, and what it means that the
message memory holds a message. -/

namespace Sys2Proof.Machine

/-- What every step keeps of a state: the canonical form of `MSG`; no width with a recorded configuration error (R209); a
running computation is configured, without error and without a digest (R190, R192); `DONE` only at rest, configured and
without error (R32); the position and the bit count of a running computation (R22, R30); what is recorded with the two
fatal errors (R202, R203). -/
structure Inv (s : State) : Prop where
  memory : s.msg.wf = true
  configError : s.errCode = some .config → s.cfg = none
  running : s.phase ≠ .idle → s.cfg ≠ none ∧ s.errCode = none ∧ s.done = false
  finished : s.done = true → s.phase = .idle ∧ s.cfg ≠ none ∧ s.errCode = none
  absorbing : s.phase = .absorb →
    s.pos.toNat ≤ s.len.toNat ∧ s.pos.toNat % 64 = 0 ∧ s.n = vec (8 * s.pos.toNat)
  finalizing : s.phase = .finN ∨ s.phase = .finS ∨ s.phase = .out →
    s.pos = s.len ∧ s.n = vec (8 * s.len.toNat)
  violation : s.errCode = some .invariantViolation → s.errInfo = s.pos
  illegal : s.errCode = some .illegalCommand → s.errInfo.toNat < 256 ∧ s.errInfo ≠ 1#64 ∧ s.errInfo ≠ 2#64

/-- The number of stages a computation still takes (R172). -/
def stagesLeft (s : State) : Nat :=
  match s.phase with
  | .idle => 0
  | .init => s.len.toNat / 64 + 5
  | .absorb => remaining s / 64 + 4
  | .finN => 3
  | .finS => 2
  | .out => 1

/-- It is the controller's turn in every step until the host takes one again: the host has nothing to do and no datapath
operation is selected. -/
def controllerRuns (s : State) : Prop := s.host = [] ∧ s.dp.sel = 0#4

/-- `MSG` can supply the message at offsets 0 .. `msg.length - 1` (R52, R56). -/
def holdsMessage (m : Memory) (msg : List Byte) : Prop := ∀ i : Fin msg.length, m.byteAt i.val = some msg[i]

/-- The registers of R20 and nothing else. -/
structure Registers where
  h : Vec512
  n : Vec512
  sigma : Vec512
  m : Vec512
  k : Vec512
  t : Vec512
  digest : Vector Byte 64
  cfg : Option Width
  len : Word64
  pos : Word64
  phase : Phase
  done : Bool
  errCode : Option CoreError
  errInfo : Word64
  deriving DecidableEq, Repr

/-- The complete state of the core itself (R20), without the host's side and the model's own fields. -/
def registers (s : State) : Registers where
  h := s.h
  n := s.n
  sigma := s.sigma
  m := s.m
  k := s.k
  t := s.t
  digest := s.digest
  cfg := s.cfg
  len := s.len
  pos := s.pos
  phase := s.phase
  done := s.done
  errCode := s.errCode
  errInfo := s.errInfo

end Sys2Proof.Machine
end

