-- ==== Sys2Proof/Certificates/Slice0/Obligations.lean ====
section
/-! DEFINITION. The statements about the machine, each with the rule of the spec it formalises. A result on the datapath's
output and the state of the datapath's operand inputs are the model's own way to run a datapath operation by itself
(assumption 7); the functions and the registers are the spec's. -/

open Sys2Proof Sys2Proof.Machine

/-! ### Encoding -/

/-- R82: the two opcodes, by match and mask over the 72-bit word. -/
def Obligations.CommandOpcodesByMatchAndMask : Prop :=
  ∀ w : CmdWord,
    (w &&& 0xFF0000000000000000#72 = 0x010000000000000000#72 →
      decode (.command w) = .ok (.construct (w.setWidth 64))) ∧
    (w &&& 0xFF0000000000000000#72 = 0x020000000000000000#72 →
      decode (.command w) = .ok (.compute (w.setWidth 64)))

/-- A few code words written out from the spec's encodings (R82, R85, R86, R87). -/
def Obligations.WrittenOutCodeWordsDecode : Prop :=
  decode (.command 0x010000000000000100#72) = .ok (.construct 256#64) ∧
  decode (.command 0x010000000000000180#72) = .ok (.construct 384#64) ∧
  decode (.command 0x02000000000000003f#72) = .ok (.compute 63#64) ∧
  decode (.command 0x070000000000000200#72) = .error (.illegalOpcode 0x07#8) ∧
  decode (.stage 0b001#3 false) = .ok .init ∧
  decode (.stage 0b101#3 true) = .ok .out ∧
  decode (.datapath 0b0001#4) = .ok .x ∧
  decode (.datapath 0b0111#4) = .ok .keystep ∧
  decode (.datapath 0b1010#4) = .ok .g ∧
  decode (.datapath 0b1110#4) = .ok .trunc256

/-- R85, R86, R88: the whole phase table and the whole select table. -/
def Obligations.PhaseAndSelectTables : Prop :=
  (∀ full : Bool,
    decode (.stage 0b000#3 full) = .error .noStageDue ∧ decode (.stage 0b001#3 full) = .ok .init ∧
    decode (.stage 0b010#3 full) = .ok (if full then .full else .tail) ∧
    decode (.stage 0b011#3 full) = .ok .finN ∧ decode (.stage 0b100#3 full) = .ok .finS ∧
    decode (.stage 0b101#3 full) = .ok .out ∧ decode (.stage 0b110#3 full) = .error .reservedPhase ∧
    decode (.stage 0b111#3 full) = .error .reservedPhase) ∧
  (decode (.datapath 0b0000#4) = .error .noOperation ∧ decode (.datapath 0b0001#4) = .ok .x ∧
    decode (.datapath 0b0010#4) = .ok .s ∧ decode (.datapath 0b0011#4) = .ok .p ∧
    decode (.datapath 0b0100#4) = .ok .l ∧ decode (.datapath 0b0101#4) = .ok .add512 ∧
    decode (.datapath 0b0110#4) = .ok .lps ∧ decode (.datapath 0b0111#4) = .ok .keystep ∧
    decode (.datapath 0b1000#4) = .ok .round ∧ decode (.datapath 0b1001#4) = .ok .e ∧
    decode (.datapath 0b1010#4) = .ok .g ∧ decode (.datapath 0b1011#4) = .ok .ingest ∧
    decode (.datapath 0b1100#4) = .ok .pad ∧ decode (.datapath 0b1101#4) = .ok .rev512 ∧
    decode (.datapath 0b1110#4) = .ok .trunc256 ∧ decode (.datapath 0b1111#4) = .error .reservedSelect)

/-- Decoding and encoding agree. Decoding the code word of an operation gives the operation back, with every operand;
encoding what a code word decodes to gives the code word back (for a stage, its phase code); and exactly the well-formed code
words decode to an operation. -/
def Obligations.DecodeAndEncodeAgree : Prop :=
  (∀ i : Instr, decode (encode i) = .ok i) ∧
  (∀ w i, decode (.command w) = .ok i → encode i = .command w) ∧
  (∀ ph full i, decode (.stage ph full) = .ok i → ∃ full', encode i = .stage ph full') ∧
  (∀ sel i, decode (.datapath sel) = .ok i → encode i = .datapath sel) ∧
  ∀ c : CodeWord, c.wellFormed = true ↔ ∃ i, decode c = .ok i

/-! ### The step -/

/-- What the next step runs: the operation `DPSEL` names, the accepted command word, or the stage `PHASE` selects (R11, R85,
R86, R163, R190); and in `IDLE`, where no operation is due, the step changes nothing but the host's script (R31, R41, R90; the
script form is assumptions 6 and 10). -/
def Obligations.StepRunsTheDecodedOperation : Prop :=
  ∀ (s : State) (i : Instr) (rest : List HostAction) (w : CmdWord),
    (resetAsserted s = false → decode (.datapath s.dp.sel) = .ok i →
      step s = exec i { s with dp := { s.dp with sel := 0#4 } }) ∧
    (s.dp.sel = 0#4 → s.host = .command w :: rest → accepts s = true → decode (.command w) = .ok i →
      step s = exec i { s with host := rest }) ∧
    (s.dp.sel = 0#4 → s.host = .hold w :: rest → accepts s = true → decode (.command w) = .ok i →
      step s = exec i { s with host := rest }) ∧
    (s.dp.sel = 0#4 → s.host = [] →
      decode (.stage (phaseCode s.phase) (decide (64 ≤ s.len.toNat - s.pos.toNat))) = .ok i → step s = exec i s) ∧
    (s.dp.sel = 0#4 → s.host = .pass :: rest →
      decode (.stage (phaseCode s.phase) (decide (64 ≤ s.len.toNat - s.pos.toNat))) = .ok i →
      step s = exec i { s with host := rest }) ∧
    (s.dp.sel = 0#4 → s.host = .wait :: rest →
      decode (.stage (phaseCode s.phase) (decide (64 ≤ s.len.toNat - s.pos.toNat))) = .ok i → step s = exec i s) ∧
    (s.dp.sel = 0#4 → s.phase = .idle → s.host = [] → step s = .next s) ∧
    (s.dp.sel = 0#4 → s.phase = .idle → s.host = .pass :: rest ∨ s.host = .wait :: rest →
      step s = .next { s with host := rest })

/-- R163: in phase `ABSORB` the stage is `FULL` when `LEN - POS >= 64` and `TAIL` otherwise. -/
def Obligations.AbsorbDispatchesByRemainingLength : Prop :=
  ∀ s : State, s.dp.sel = 0#4 → s.host = [] → s.phase = .absorb → s.pos.toNat ≤ s.len.toNat →
    (64 ≤ s.len.toNat - s.pos.toNat → step s = exec .full s) ∧
    (s.len.toNat - s.pos.toNat < 64 → step s = exec .tail s)

/-- R190: when a command word is accepted, what it then does, and that a word not accepted changes nothing. -/
def Obligations.CommandChannelAcceptance : Prop :=
  (∀ s : State, accepts s = true ↔ s.phase = .idle ∧ (s.errCode = none ∨ s.errCode = some .config)) ∧
  ∀ (s : State) (w : CmdWord) (rest : List HostAction), s.dp.sel = 0#4 →
    (s.host = .command w :: rest → accepts s = false → step s = .next { s with host := rest }) ∧
    (s.host = .hold w :: rest → accepts s = false →
      ∃ t, step { s with host := [] } = .next t ∧ step s = .next { t with host := s.host }) ∧
    (s.host = .command w :: rest ∨ s.host = .hold w :: rest → accepts s = true →
      (w.extractLsb' 64 8 = 0x01#8 →
        step s = exec (.construct (w.extractLsb' 0 64)) { s with host := rest }) ∧
      (w.extractLsb' 64 8 = 0x02#8 →
        step s = exec (.compute (w.extractLsb' 0 64)) { s with host := rest }) ∧
      (w.extractLsb' 64 8 ≠ 0x01#8 → w.extractLsb' 64 8 ≠ 0x02#8 →
        step s = .next (raise .illegalCommand ((w.extractLsb' 64 8).setWidth 64) { s with host := rest })))

/-! ### Commands and errors -/

/-- R191: `CONSTRUCT`, accepted, for every operand: the legal widths configure, every other width is the configuration
error; all that is not named keeps its value. -/
def Obligations.ConstructConfiguresOrRejects : Prop :=
  (∀ width : Word64, encode (.construct width) = .command (0x01#8 ++ width)) ∧
  ∀ (s : State) (width : Word64), s.phase = .idle → (s.errCode = none ∨ s.errCode = some .config) →
    (width = 256#64 → exec (.construct width) s = .next { s with cfg := some .w256, done := false, errCode := none }) ∧
    (width = 512#64 → exec (.construct width) s = .next { s with cfg := some .w512, done := false, errCode := none }) ∧
    (width ≠ 256#64 → width ≠ 512#64 → exec (.construct width) s =
      .next { s with cfg := none, done := false, errCode := some .config, errInfo := width })

/-- R192: `COMPUTE`, accepted: it starts the computation when configured and is a configuration error otherwise; all that is
not named keeps its value. -/
def Obligations.ComputeStartsOrRejects : Prop :=
  (∀ len : Word64, encode (.compute len) = .command (0x02#8 ++ len)) ∧
  ∀ (s : State) (len : Word64), s.phase = .idle → (s.errCode = none ∨ s.errCode = some .config) →
    (s.cfg ≠ none → exec (.compute len) s = .next { s with len := len, done := false, phase := .init }) ∧
    (s.cfg = none → exec (.compute len) s =
      .next { s with done := false, errCode := some .config, errInfo := 0#64 })

/-- A command not accepted has no effect at all (R190). -/
def Obligations.UnacceptedCommandHasNoEffect : Prop :=
  ∀ (s : State) (arg : Word64),
    s.phase ≠ .idle ∨ s.errCode = some .invariantViolation ∨ s.errCode = some .illegalCommand →
    exec (.construct arg) s = .next s ∧ exec (.compute arg) s = .next s

/-- R203: an accepted word with any of the 254 other opcodes; all that is not named keeps its value. -/
def Obligations.IllegalOpcodeEntersFatalError : Prop :=
  ∀ (s : State) (w : CmdWord) (rest : List HostAction), s.dp.sel = 0#4 → s.host = .command w :: rest →
    s.phase = .idle → (s.errCode = none ∨ s.errCode = some .config) →
    w.extractLsb' 64 8 ≠ 0x01#8 → w.extractLsb' 64 8 ≠ 0x02#8 →
    step s = .next { s with
      host := rest
      done := false
      errCode := some .illegalCommand
      errInfo := (w.extractLsb' 64 8).setWidth 64 }

/-- R202: `FULL` and `TAIL` where the memory cannot supply the bytes asked for; all that is not named keeps its value. -/
def Obligations.ReadFaultAbortsTheComputation : Prop :=
  ∀ s : State, s.phase = .absorb →
    (64 ≤ s.len.toNat - s.pos.toNat → (∃ i < 64, s.msg.byteAt (s.pos.toNat + i) = none) →
      exec .full s = .next { s with
        errCode := some .invariantViolation, errInfo := s.pos, done := false, phase := .idle }) ∧
    (s.len.toNat - s.pos.toNat < 64 →
      (∃ i < s.len.toNat - s.pos.toNat, s.msg.byteAt (s.pos.toNat + i) = none) →
      exec .tail s = .next { s with
        errCode := some .invariantViolation, errInfo := s.pos, done := false, phase := .idle })

/-- R206: error entry writes exactly these registers, with the codes of R205. -/
def Obligations.ErrorEntryWritesExactly : Prop :=
  (∀ (e : CoreError) (info : Word64) (s : State),
    raise e info s = { s with
      errCode := some e
      errInfo := info
      done := false
      phase := .idle
      cfg := if e = .config then none else s.cfg }) ∧
  errCodeBits none = 0b00#2 ∧ errCodeBits (some .config) = 0b01#2 ∧
  errCodeBits (some .invariantViolation) = 0b10#2 ∧ errCodeBits (some .illegalCommand) = 0b11#2

/-- R210: in the fatal state, whatever the host does short of reset, every register and every output keeps its value for any
number of steps. -/
def Obligations.FatalStateIsStuckUntilReset : Prop :=
  ∀ (k : Nat) (s : State), fatal s = true → s.phase = .idle → s.dp.sel = 0#4 →
    (∀ a ∈ s.host, a ≠ HostAction.reset) →
    ∃ t, Host.Core.run core k s = .next t ∧ registers t = registers s ∧ outputs t = outputs s ∧
      fatal t = true ∧ accepts t = false

/-! ### Reset -/

/-- R38, R231: the state after reset (the values the spec gives). -/
def Obligations.ResetStateValues : Prop :=
  State.reset.cfg = none ∧ State.reset.phase = .idle ∧ State.reset.done = false ∧ State.reset.errCode = none ∧
  State.reset.errInfo = 0#64 ∧ busy State.reset = false ∧ fatal State.reset = false ∧ err State.reset = false ∧
  accepts State.reset = true

/-- R230: the reset action, from every state and before every other step due: what it sets, and that it leaves `MSG` alone.
Nothing is said of the registers it leaves unspecified. -/
def Obligations.ResetActsInEveryState : Prop :=
  ∀ (s : State) (rest : List HostAction), s.host = .reset :: rest →
    ∃ t, step s = .next t ∧ t.cfg = none ∧ t.phase = .idle ∧ t.done = false ∧ t.errCode = none ∧ t.errInfo = 0#64 ∧
      t.msg = s.msg ∧ (∀ a, t.msg.byteAt a = s.msg.byteAt a) ∧ t.host = rest ∧ accepts t = true

/-! ### The block transform -/

/-- R120. -/
def Obligations.XorIsBytewise : Prop :=
  encode .x = .datapath 0b0001#4 ∧
  (∀ s : State, ∃ r, exec .x s = .next { s with dp := { s.dp with result := .vec r } } ∧
    (∀ i < 64, byteOf r i = byteOf s.dp.opA i ^^^ byteOf s.dp.opB i) ∧ r.toNat = s.dp.opA.toNat ^^^ s.dp.opB.toNat) ∧
  (∀ a, xor512 a a = 0#512) ∧ (∀ a, xor512 a romZero512 = a) ∧ (∀ a b, xor512 a b = xor512 b a) ∧
  (∀ a b c, xor512 (xor512 a b) c = xor512 a (xor512 b c)) ∧
  xor512 (ofBytes fun _ => 0x0f#8) (ofBytes fun i => if i % 2 = 0 then 0xff#8 else 0x00#8) =
    ofBytes fun i => if i % 2 = 0 then 0xf0#8 else 0x0f#8

/-- R121. -/
def Obligations.SubstitutionOnEveryByte : Prop :=
  encode .s = .datapath 0b0010#4 ∧
  (∀ s : State, ∃ r, exec .s s = .next { s with dp := { s.dp with result := .vec r } } ∧
    ∀ i < 64, byteOf r i = romSbox (byteOf s.dp.opA i)) ∧
  (∀ i < 64, byteOf (sub512 romZero512) i = 0xfc#8) ∧ (∀ i < 64, byteOf (sub512 (romIV .w256)) i = 0xee#8) ∧
  Function.Bijective sub512 ∧ (∀ a, sub512 (perm512 a) = perm512 (sub512 a)) ∧
  sub512 (ofBytes fun i => BitVec.ofNat 8 i) =
    0xfceedd11cf6e3116fbc4fada23c5044de977f0db932e99ba1736f1bb14cd5fc1f918655ae25cef21811c3c428b018e4f058402aee36a8fa0060bed987fd4d31f#512

/-- R122. -/
def Obligations.PermutationIsTranspose : Prop :=
  encode .p = .datapath 0b0011#4 ∧
  (∀ s : State, ∃ r, exec .p s = .next { s with dp := { s.dp with result := .vec r } } ∧
    (∀ j < 64, byteOf r j = byteOf s.dp.opA (romTau j)) ∧ (∀ j < 64, byteOf r (romTau j) = byteOf s.dp.opA j)) ∧
  (∀ j < 64, romTau (63 - j) = 63 - romTau j) ∧ (∀ a, perm512 (perm512 a) = a) ∧
  (∀ b : Byte, perm512 (ofBytes fun _ => b) = ofBytes fun _ => b) ∧
  (∀ a, ∀ k < 8, ∀ l < 8, byteOf (perm512 a) (8 * k + l) = byteOf a (8 * l + k)) ∧
  perm512 (ofBytes fun i => BitVec.ofNat 8 i) =
    0x00081018202830380109111921293139020a121a222a323a030b131b232b333b040c141c242c343c050d151d252d353d060e161e262e363e070f171f272f373f#512

/-- R123: `L` acts on each word lane by `l64`, and `l64` is the linear map that takes bit position `i` to `ROM.A[i]`. -/
def Obligations.LinearDiffusion : Prop :=
  encode .l = .datapath 0b0100#4 ∧
  (∀ s : State, ∃ r, exec .l s = .next { s with dp := { s.dp with result := .vec r } } ∧
    ∀ k < 8, laneOf r k = lin64 (laneOf s.dp.opA k)) ∧
  lin64 0#64 = 0#64 ∧ (∀ u v, lin64 (u ^^^ v) = lin64 u ^^^ lin64 v) ∧
  (∀ i < 64, lin64 (BitVec.twoPow 64 (63 - i)) = romA i) ∧
  lin64 (BitVec.allOnes 64) = 0xab8eff9ec7466498#64 ∧
  lin512 romZero512 = romZero512 ∧ (∀ a b, lin512 (xor512 a b) = xor512 (lin512 a) (lin512 b)) ∧
  (∀ a b, ∀ k < 8, laneOf a k = laneOf b k → laneOf (lin512 a) k = laneOf (lin512 b) k) ∧
  Function.Bijective lin512 ∧
  lin64 0x0123456789abcdef#64 = 0xa49049a565bdc399#64 ∧
  lin512 (ofBytes fun i => BitVec.ofNat 8 i) =
    0x93953387e7118d52d3463b2bdf4d4443132e23c297a9027053fd2b6eaff5cb618efe130d077c8e16ce2d1ba13f2047070e45034877c401344e960be44f98c825#512

/-- R124: the sum modulo 2^512, which is what the byte-serial loop with carry computes. -/
def Obligations.AdditionModulo : Prop :=
  encode .add512 = .datapath 0b0101#4 ∧
  (∀ s : State, ∃ r, exec .add512 s = .next { s with dp := { s.dp with result := .vec r } } ∧
    r.toNat = (s.dp.opA.toNat + s.dp.opB.toNat) % 2 ^ 512 ∧
    ∀ i < 64, byteOf r i = addByte s.dp.opA s.dp.opB i) ∧
  (∀ a, add512 a romZero512 = a) ∧ add512 (BitVec.allOnes 512) (vec 1) = romZero512 ∧
  add512 (BitVec.allOnes 512) (BitVec.allOnes 512) = ofBytes (fun i => if i = 63 then 0xfe#8 else 0xff#8) ∧
  add512 (vec (2 ^ 504 - 1)) (vec 1) = ofBytes (fun i => if i = 0 then 0x01#8 else 0x00#8) ∧
  add512 (vec 255) (vec 1) = ofBytes (fun i => if i = 62 then 0x01#8 else 0x00#8) ∧
  (∀ a b, add512 a b = add512 b a) ∧ ∀ a b c, add512 (add512 a b) c = add512 a (add512 b c)

/-! ### The cipher and the compression -/

/-- R140. -/
def Obligations.SubstitutePermuteDiffuse : Prop :=
  encode .lps = .datapath 0b0110#4 ∧
  (∀ s : State, exec .lps s =
    .next { s with dp := { s.dp with result := .vec (lin512 (perm512 (sub512 s.dp.opA))) } }) ∧
  Function.Bijective lps ∧ (∀ a, lps a = lin512 (sub512 (perm512 a))) ∧ lps romZero512 ≠ romZero512 ∧
  (∀ k < 8, laneOf (lps romZero512) k = 0xb383fc2eced4a574#64) ∧
  lps (ofBytes fun i => BitVec.ofNat 8 i) =
    0x779271f561cd4cdf3a7222a7566373616e62ac376c30fc825cf74a93ae2ea9b5f867468c999fa006dc1d0fbf25c944fccf1916b528bd95cabba37579bf2e09a0#512

/-- R141, R142: the next key and the round. -/
def Obligations.KeyStepAndRound : Prop :=
  encode .keystep = .datapath 0b0111#4 ∧ encode .round = .datapath 0b1000#4 ∧
  (∀ s : State, exec .keystep s =
    .next { s with dp := { s.dp with result := .vec (lps (s.dp.opA ^^^ romC s.dp.round)) } }) ∧
  keyStep (lps romZero512) 0 =
    0xd0b00807642fd78f13f2c3ebc774e80de0e902d23aef2ee9a73d010807dae9c188be14f0b2da27973569cd2ba051301036f728bd1d7eec33f4d18af70c46cf1e#512 ∧
  ∀ (s : State) (kn : Vec512), kn = lps (s.dp.opB ^^^ romC s.dp.round) →
    exec .round s = .next { s with dp := { s.dp with result := .pair (lps s.dp.opA ^^^ kn) kn } }

/-- R143, R144: the cipher, by its twelve rounds; what the working registers hold after it; and that for a fixed key it is a
bijection of the block. -/
def Obligations.CipherTwelveRounds : Prop :=
  encode .e = .datapath 0b1001#4 ∧
  (∀ (s : State) (K T : Nat → Vec512), K 1 = s.dp.opA → T 0 = s.dp.opB ^^^ s.dp.opA →
    (∀ r : Fin 12, K (r.val + 2) = lps (K (r.val + 1) ^^^ romC r) ∧ T (r.val + 1) = lps (T r.val) ^^^ K (r.val + 2)) →
    exec .e s = .next { s with t := T 12, k := K 13, dp := { s.dp with result := .vec (T 12) } }) ∧
  ∀ k1, Function.Bijective fun m => (cipher k1 m).1

/-- R150: the compression function; `H`, `N`, `SIGMA`, `M` are not written. -/
def Obligations.CompressionFunction : Prop :=
  encode .g = .datapath 0b1010#4 ∧
  ∀ (s : State) (k1 t k : Vec512), k1 = lps (s.dp.opA ^^^ s.dp.opB) → (t, k) = cipher k1 s.dp.opC →
    exec .g s = .next { s with t := t, k := k, dp := { s.dp with result := .vec (t ^^^ s.dp.opA ^^^ s.dp.opC) } }

/-! ### The boundary -/

/-- R161. -/
def Obligations.IngestReverses : Prop :=
  encode .ingest = .datapath 0b1011#4 ∧
  (∀ s : State, ∃ r, exec .ingest s = .next { s with dp := { s.dp with result := .vec r } } ∧
    (∀ i : Fin 64, byteOf r i.val = s.dp.bytes[63 - i.val]) ∧
    r.toNat = (List.range 64).foldl (fun acc i => acc + (s.dp.bytes.toList.getD i 0#8).toNat * 256 ^ i) 0) ∧
  (∀ b : Vector Byte 64, ingest ((List.range 64).map (byteOf (ingest b.toList))) =
    ofBytes fun i => b.toList.getD i 0x00#8) ∧
  ∀ v : Vec512, ingest (rev512 v).toList = v

/-- R162, for every length `L` in 0..63. -/
def Obligations.PadPlacesTheTerminator : Prop :=
  encode .pad = .datapath 0b1100#4 ∧
  (∀ s : State, ∃ r, exec .pad s = .next { s with dp := { s.dp with result := .vec r } } ∧
    (∀ i : Fin 64, i < s.dp.count → byteOf r (63 - i.val) = s.dp.bytes[i]) ∧
    byteOf r (63 - s.dp.count.val) = 0x01#8 ∧
    (∀ i < 63 - s.dp.count.val, byteOf r i = 0x00#8) ∧
    r.toNat = (List.range s.dp.count.val).foldl
      (fun acc i => acc + (s.dp.bytes.toList.getD i 0#8).toNat * 256 ^ i) (256 ^ s.dp.count.val)) ∧
  pad [] = vec 1

/-- R169, R170: the two digest forms, and the number the 256-bit form is. -/
def Obligations.DigestForms : Prop :=
  encode .rev512 = .datapath 0b1101#4 ∧ encode .trunc256 = .datapath 0b1110#4 ∧
  (∀ s : State, ∃ d : List Byte, exec .rev512 s = .next { s with dp := { s.dp with result := .bytes d } } ∧
    d.length = 64 ∧ (∀ j < 64, d[j]? = some (byteOf s.dp.opA (63 - j))) ∧ ingest d = s.dp.opA) ∧
  ∀ s : State, ∃ d : List Byte, exec .trunc256 s = .next { s with dp := { s.dp with result := .bytes d } } ∧
    d.length = 32 ∧ (∀ j < 32, d[j]? = some (byteOf s.dp.opA j)) ∧
    d.foldl (fun acc b => acc * 256 + b.toNat) 0 = s.dp.opA.toNat / 2 ^ 256

/-! ### The stages -/

/-- R160, with the chaining values of R105; all that is not named keeps its value. With `CFG = NONE` stage `INIT` never stands
in a run (R160; the invariant rules it out). -/
def Obligations.InitLoadsTheChainingValue : Prop :=
  encode .init = .stage 0b001#3 false ∧
  ∀ s : State, s.phase = .init →
    (s.cfg = some .w512 → exec .init s =
      .next { s with h := 0#512, n := 0#512, sigma := 0#512, pos := 0#64, phase := .absorb }) ∧
    (s.cfg = some .w256 → exec .init s =
      .next { s with h := ofBytes (fun _ => 0x01#8), n := 0#512, sigma := 0#512, pos := 0#64, phase := .absorb })

/-- R164: `FULL` with a block the memory supplies; all that is not named keeps its value. -/
def Obligations.FullAbsorbsABlock : Prop :=
  encode .full = .stage 0b010#3 true ∧
  ∀ (s : State) (b : Nat → Byte), s.phase = .absorb → 64 ≤ s.len.toNat - s.pos.toNat →
    (∀ i < 64, s.msg.byteAt (s.pos.toNat + i) = some (b i)) →
    ∃ m : Vec512, (∀ i < 64, byteOf m i = b (63 - i)) ∧
      exec .full s = .next { s with
        m := m
        h := compress s.h s.n m
        t := (cipher (lps (s.h ^^^ s.n)) m).1
        k := (cipher (lps (s.h ^^^ s.n)) m).2
        n := s.n + 512#512
        sigma := s.sigma + m
        pos := s.pos + 64#64 }

/-- R165: `TAIL` with the tail the memory supplies; all that is not named keeps its value. -/
def Obligations.TailAbsorbsThePaddedTail : Prop :=
  encode .tail = .stage 0b010#3 false ∧
  ∀ (s : State) (b : Nat → Byte) (L : Nat), s.phase = .absorb → s.pos.toNat ≤ s.len.toNat →
    L = s.len.toNat - s.pos.toNat → L < 64 → (∀ i < L, s.msg.byteAt (s.pos.toNat + i) = some (b i)) →
    ∃ m : Vec512, (∀ i < L, byteOf m (63 - i) = b i) ∧ byteOf m (63 - L) = 0x01#8 ∧
      (∀ i < 63 - L, byteOf m i = 0x00#8) ∧
      exec .tail s = .next { s with
        m := m
        h := compress s.h s.n m
        t := (cipher (lps (s.h ^^^ s.n)) m).1
        k := (cipher (lps (s.h ^^^ s.n)) m).2
        n := s.n + BitVec.ofNat 512 (8 * L)
        sigma := s.sigma + m
        pos := s.len
        phase := .finN }

/-- R166, R167: the two finalization compressions; `N`, `SIGMA`, `M` and all that is not named keep their values. -/
def Obligations.FinalizationCompressions : Prop :=
  encode .finN = .stage 0b011#3 false ∧ encode .finS = .stage 0b100#3 false ∧
  ∀ s : State,
    (s.phase = .finN → exec .finN s = .next { s with
      h := compress s.h romZero512 s.n
      t := (cipher (lps (s.h ^^^ romZero512)) s.n).1
      k := (cipher (lps (s.h ^^^ romZero512)) s.n).2
      phase := .finS }) ∧
    (s.phase = .finS → exec .finS s = .next { s with
      h := compress s.h romZero512 s.sigma
      t := (cipher (lps (s.h ^^^ romZero512)) s.sigma).1
      k := (cipher (lps (s.h ^^^ romZero512)) s.sigma).2
      phase := .out })

/-- R168: the digest lanes `OUT` writes, for both widths; nothing is said of the lanes 32..63 of a 256-bit digest. The draw
counter is the model's own. With `CFG = NONE` stage `OUT` never stands in a run (the invariant rules it out). -/
def Obligations.OutWritesTheDigest : Prop :=
  encode .out = .stage 0b101#3 false ∧
  ∀ s : State, s.phase = .out →
    (s.cfg = some .w512 → ∃ d : Vector Byte 64, (∀ j : Fin 64, d[j] = byteOf s.h (63 - j.val)) ∧
      exec .out s = .next { s with digest := d, done := true, phase := .idle }) ∧
    (s.cfg = some .w256 → ∃ (d : Vector Byte 64) (draws : Nat), (∀ j : Fin 64, j.val < 32 → d[j] = byteOf s.h j.val) ∧
      exec .out s = .next { s with digest := d, done := true, phase := .idle, draws := draws })

/-- A stage whose condition does not hold is no step (R85, R163); that its meaning then faults is the model's own choice
(assumption 11). The step never asks for such a stage: it answers a next state from every state but one with the reserved
`DPSEL = 1111` and no reset asserted (R88). -/
def Obligations.StageOutOfPhaseFaults : Prop :=
  (∀ s : State, s.dp.sel ≠ 0b1111#4 ∨ resetAsserted s = true → ∃ t, step s = .next t) ∧
  (∀ s : State, s.dp.sel = 0b1111#4 → resetAsserted s = false → step s = .fault .reservedDatapathSelect) ∧
  ∀ s : State,
    (s.phase ≠ .init → exec .init s = .fault .stageNotDue) ∧
    (s.phase ≠ .absorb ∨ s.len.toNat - s.pos.toNat < 64 → exec .full s = .fault .stageNotDue) ∧
    (s.phase ≠ .absorb ∨ 64 ≤ s.len.toNat - s.pos.toNat → exec .tail s = .fault .stageNotDue) ∧
    (s.phase ≠ .finN → exec .finN s = .fault .stageNotDue) ∧
    (s.phase ≠ .finS → exec .finS s = .fault .stageNotDue) ∧
    (s.phase ≠ .out → exec .out s = .fault .stageNotDue)

/-! ### Frames -/

/-- No operation writes the message memory (R52, R60) or the host's script. -/
def Obligations.NoOperationWritesTheMessage : Prop :=
  ∀ (i : Instr) (s t : State), exec i s = .next t →
    t.msg = s.msg ∧ (∀ a, t.msg.byteAt a = s.msg.byteAt a) ∧ t.host = s.host

/-- R37: what each step may write, column by column of the access table: a register outside the columns of a step keeps its
value whenever the step goes on. -/
def Obligations.AccessTable : Prop :=
  ∀ (i : Instr) (s t : State), exec i s = .next t →
    (i ∉ [.init, .full, .tail, .finN, .finS] → t.h = s.h) ∧
    (i ∉ [.init, .full, .tail] → t.n = s.n ∧ t.sigma = s.sigma ∧ t.pos = s.pos) ∧
    (i ∉ [.full, .tail] → t.m = s.m) ∧
    (i ∉ [.full, .tail, .finN, .finS, .e, .g] → t.k = s.k ∧ t.t = s.t) ∧
    (i ≠ .out → t.digest = s.digest) ∧
    ((∀ w, i ≠ .construct w) → (∀ l, i ≠ .compute l) → t.cfg = s.cfg) ∧
    ((∀ l, i ≠ .compute l) → t.len = s.len) ∧
    ((∀ l, i ≠ .compute l) → i ∉ [.init, .full, .tail, .finN, .finS, .out] → t.phase = s.phase) ∧
    ((∀ w, i ≠ .construct w) → (∀ l, i ≠ .compute l) → i ∉ [.full, .tail, .out] → t.done = s.done) ∧
    ((∀ w, i ≠ .construct w) → (∀ l, i ≠ .compute l) → i ∉ [.full, .tail] →
      t.errCode = s.errCode ∧ t.errInfo = s.errInfo)

/-! ### The message port -/

/-- R57: in every state that meets the invariant, the read the next stage issues is aligned, of at most 64 bytes, and inside
the message (R52, R58). -/
def Obligations.MessageReadsAreAligned : Prop :=
  ∀ (s : State) (a n : Nat), Inv s → messageRequest s = some (a, n) →
    a % 64 = 0 ∧ 1 ≤ n ∧ n ≤ 64 ∧ a + n ≤ s.len.toNat

/-- A controller step depends on no byte of the message memory but those of the one transaction it issues (R56, R64). -/
def Obligations.StageReadsOnlyItsTransaction : Prop :=
  ∀ (s : State) (m' : Memory), s.host = [] → s.dp.sel = 0#4 →
    (∀ a n, messageRequest s = some (a, n) → ∀ i < n, m'.byteAt (a + i) = s.msg.byteAt (a + i)) →
    ∃ t, step s = .next t ∧ step { s with msg := m' } = .next { t with msg := m' }

/-- The host's writes: the byte written is the byte read, the others keep their values, and no register of the core
changes (R50, R90; the withdrawal of a byte is the model's way to say which reads fault, assumption 6). -/
def Obligations.HostWritesChangeOnlyTheMessage : Prop :=
  ∀ (s : State) (rest : List HostAction) (a : Word64) (b : Byte), s.dp.sel = 0#4 → s.msg.wf = true →
    (s.host = .write a b :: rest → ∃ t, step s = .next t ∧ registers t = registers s ∧ t.host = rest ∧
      ∀ x, t.msg.byteAt x = if x = a.toNat then some b else s.msg.byteAt x) ∧
    (s.host = .withdraw a :: rest → ∃ t, step s = .next t ∧ registers t = registers s ∧ t.host = rest ∧
      ∀ x, t.msg.byteAt x = if x = a.toNat then none else s.msg.byteAt x) ∧
    (∀ bs : List Byte, bs.length ≤ 2 ^ 64 → s.host = .message bs :: rest →
      ∃ t, step s = .next t ∧ registers t = registers s ∧ t.host = rest ∧
        ∀ x, t.msg.byteAt x = if x < bs.length then bs[x]? else s.msg.byteAt x)

/-! ### Outputs, ROM, script -/

/-- R35 and the codes of R28 and R31. -/
def Obligations.StatusOutputsFollowTheRegisters : Prop :=
  (∀ s : State, ((outputs s).busy = true ↔ s.phase ≠ .idle) ∧ ((outputs s).err = true ↔ s.errCode ≠ none) ∧
    (fatal s = true ↔ (outputs s).errCode = 2#2 ∨ (outputs s).errCode = 3#2) ∧
    (accepts s = true ↔ (outputs s).busy = false ∧ fatal s = false)) ∧
  cfgCode none = 0b00#2 ∧ cfgCode (some .w256) = 0b01#2 ∧ cfgCode (some .w512) = 0b10#2 ∧
  (phaseCode .idle = 0#3 ∧ phaseCode .init = 1#3 ∧ phaseCode .absorb = 2#3 ∧ phaseCode .finN = 3#3 ∧
    phaseCode .finS = 4#3 ∧ phaseCode .out = 5#3)

/-- R193: while `DONE = 1` the host reads the `DLEN` digest lanes, the same bytes at every read; and they stay the same over
every step until `DONE` is cleared, which from such a state only reset and an accepted command do (R32). -/
def Obligations.DigestIsReadWhileDone : Prop :=
  (∀ s t : State, Inv s → s.done = true → step s = .next t →
    (t.done = true ∧ (outputs t).dlen = (outputs s).dlen ∧ (outputs t).digest = (outputs s).digest) ∨
    (t.done = false ∧ (resetAsserted s = true ∨ (s.dp.sel = 0#4 ∧ accepts s = true ∧
      ∃ (w : CmdWord) (rest : List HostAction), s.host = .command w :: rest ∨ s.host = .hold w :: rest)))) ∧
  ∀ s : State, s.done = true →
    (s.cfg = some .w512 → (outputs s).dlen = 64 ∧ (outputs s).digest = some s.digest.toList ∧
      ∀ (read : Nat) (j : Fin 64), laneSeen read s j = s.digest[j]) ∧
    (s.cfg = some .w256 → (outputs s).dlen = 32 ∧ (outputs s).digest = some (s.digest.toList.take 32) ∧
      ∀ (read : Nat) (j : Fin 64), j.val < 32 → laneSeen read s j = s.digest[j])

/-- R109: the properties of the ROM other rules use. -/
def Obligations.RomProperties : Prop :=
  Function.Bijective romSbox ∧ Function.Bijective sub512 ∧
  (∀ j < 64, romTau j < 64 ∧ romTau (romTau j) = j) ∧ (∀ a, perm512 (perm512 a) = a) ∧
  Function.Bijective lin64 ∧ Function.Bijective lin512 ∧
  Function.Injective romC ∧ ∀ r, romC r ≠ 0#512

/-- R105, R106, R107: the words of the ROM the source gives. -/
def Obligations.RomWords : Prop :=
  romIV .w512 = 0#512 ∧ (∀ i < 64, byteOf (romIV .w256) i = 0x01#8) ∧ romInc512.toNat = 512 ∧
  (∀ i < 64, byteOf romInc512 i = if i = 62 then 0x02#8 else 0x00#8) ∧ romZero512.toNat = 0

/-- R6: byte 0 is the most-significant byte, and `vec` is the inverse of `int`. -/
def Obligations.VectorNumberCorrespondence : Prop :=
  (∀ v : Vec512, v.toNat = (List.range 64).foldl (fun acc i => acc + (byteOf v i).toNat * 256 ^ (63 - i)) 0) ∧
  (∀ v : Vec512, vec v.toNat = v) ∧ ∀ n < 2 ^ 512, (vec n).toNat = n

/-- R91: the pseudo-commands and their expansions. -/
def Obligations.PseudoCommandsExpand : Prop :=
  (∀ width len, (ScriptLine.hash width len).actions =
    (ScriptLine.construct width).actions ++ (ScriptLine.compute len).actions ++ ScriptLine.wait.actions) ∧
  (∀ len, (ScriptLine.hash256 len).actions = (ScriptLine.hash 256#64 len).actions) ∧
  ∀ len, (ScriptLine.hash512 len).actions = (ScriptLine.hash 512#64 len).actions

/-! ### The whole machine -/

/-- The invariant holds at reset. -/
def Obligations.InvariantHoldsAtReset : Prop := Inv State.reset

/-- Every step keeps the invariant: the canonical form of the message memory, `ERR_CODE = 1` only with `CFG = NONE`, a
running computation configured and without error, `DONE` only at rest, `POS` a multiple of 64 within `LEN` while absorbing
and `LEN` after it, `N` eight times the bytes absorbed. -/
def Obligations.InvariantKeptByEveryStep : Prop :=
  ∀ s t : State, Inv s → step s = .next t → Inv t

/-- R172: these are all the ways `PHASE` changes. -/
def Obligations.PhaseTransitions : Prop :=
  ∀ s t : State, step s = .next t → t.phase ≠ s.phase →
    (resetAsserted s = true ∧ t.phase = .idle) ∨
    (s.phase = .idle ∧ t.phase = .init ∧ s.cfg ≠ none ∧ accepts s = true ∧
      ∃ (w : CmdWord) (rest : List HostAction), (s.host = .command w :: rest ∨ s.host = .hold w :: rest) ∧
        w.extractLsb' 64 8 = 0x02#8 ∧ t.len = w.extractLsb' 0 64) ∨
    (s.phase = .init ∧ t.phase = .absorb) ∨
    (s.phase = .absorb ∧ t.phase = .finN ∧ s.len.toNat - s.pos.toNat < 64) ∨
    (s.phase = .absorb ∧ t.phase = .idle ∧ t.errCode = some .invariantViolation) ∨
    (s.phase = .finN ∧ t.phase = .finS) ∨ (s.phase = .finS ∧ t.phase = .out) ∨
    (s.phase = .out ∧ t.phase = .idle ∧ t.done = true)

/-- Only these events change the status: `DONE` is set by `OUT` alone (R32); the fatal state is entered by a read of which a
byte is missing or by an illegal opcode, and left by reset alone (R202, R203, R210); `CFG` changes by reset and by an accepted
command alone (R28). -/
def Obligations.OnlyTheseEventsChangeTheStatus : Prop :=
  ∀ s t : State, step s = .next t →
    (s.done = false → t.done = true → s.phase = .out ∧ t.phase = .idle) ∧
    (fatal s = true → fatal t = false → resetAsserted s = true) ∧
    (fatal s = false → fatal t = true →
      (s.phase = .absorb ∧ ∃ a n i, messageRequest s = some (a, n) ∧ i < n ∧ s.msg.byteAt (a + i) = none) ∨
      (accepts s = true ∧ ∃ (w : CmdWord) (rest : List HostAction),
        (s.host = .command w :: rest ∨ s.host = .hold w :: rest) ∧
          w.extractLsb' 64 8 ≠ 0x01#8 ∧ w.extractLsb' 64 8 ≠ 0x02#8)) ∧
    (t.cfg ≠ s.cfg → resetAsserted s = true ∨
      (accepts s = true ∧ ∃ (w : CmdWord) (rest : List HostAction), s.host = .command w :: rest ∨ s.host = .hold w :: rest))

/-- R245: every running computation comes to rest after at most the stages it still has (R243: `LEN div 64 + 5` from
`INIT`), with a digest or with an error. -/
def Obligations.EveryComputationEnds : Prop :=
  ∀ s : State, Inv s → s.phase ≠ .idle → controllerRuns s →
    ∃ k t, k ≤ stagesLeft s ∧ stagesLeft s ≤ s.len.toNat / 64 + 5 ∧ Host.Core.run core k s = .next t ∧
      busy t = false ∧ ((t.done = true ∧ t.errCode = none) ∨ (t.done = false ∧ err t = true))

/-- R173: `CONSTRUCT width` and `COMPUTE len` to a core that accepts commands, over a memory that holds the message; after
the two commands and `LEN div 64 + 5` controller steps the digest is `HASH(width, msg)`, and the core is busy in every state
from the second command to the last stage. -/
def Obligations.ComputationYieldsTheHash : Prop :=
  ∀ (s : State) (w : Width) (msg : List Byte) (len : Word64), accepts s = true → s.dp.sel = 0#4 →
    s.host = [.command (commandWord 0x01#8 (match w with | .w256 => 256#64 | .w512 => 512#64)),
      .command (commandWord 0x02#8 len)] →
    len.toNat = msg.length → holdsMessage s.msg msg →
    (∃ t, Host.Core.run core (2 + (msg.length / 64 + 5)) s = .next t ∧ t.done = true ∧ t.phase = .idle ∧
      t.errCode = none ∧ (outputs t).digest = some (streebog w msg)) ∧
    ∀ k, 2 ≤ k → k < 2 + (msg.length / 64 + 5) → ∃ t, Host.Core.run core k s = .next t ∧ t.phase ≠ .idle

/-- R41, R194: what the registers held before, and what lies in the memory outside the message, reaches no later state of a
computation and not its digest. -/
def Obligations.NothingOfThePastReachesTheDigest : Prop :=
  ∀ (s₁ s₂ : State) (k : Nat), s₁.phase = .init → s₂.phase = .init → s₁.cfg ≠ none → s₁.cfg = s₂.cfg →
    s₁.errCode = none → s₂.errCode = none → s₁.done = false → s₂.done = false → s₁.len = s₂.len →
    (∀ a < s₁.len.toNat, s₁.msg.byteAt a = s₂.msg.byteAt a) → controllerRuns s₁ → controllerRuns s₂ → 1 ≤ k →
    ∃ t₁ t₂, Host.Core.run core k s₁ = .next t₁ ∧ Host.Core.run core k s₂ = .next t₂ ∧
      t₁.h = t₂.h ∧ t₁.n = t₂.n ∧ t₁.sigma = t₂.sigma ∧ t₁.pos = t₂.pos ∧ t₁.phase = t₂.phase ∧
      t₁.done = t₂.done ∧ t₁.errCode = t₂.errCode ∧ (outputs t₁).digest = (outputs t₂).digest

/-- The stage `FULL` is the datapath operations the opcode table lists for it, `INGEST`, `G`, `ADD512`, `ADD512`, each run by
itself with the operands R164 gives it. -/
def Obligations.FullIsItsDatapathOperations : Prop :=
  ∀ (s t : State) (b : Vector Byte 64), s.phase = .absorb → 64 ≤ s.len.toNat - s.pos.toNat →
    memRead s.msg s.pos.toNat 64 = some b.toList → exec .full s = .next t →
    ∃ m h n sigma s₁ s₂ s₃ s₄,
      exec .ingest { s with dp := { s.dp with bytes := b } } = .next s₁ ∧ s₁.dp.result = .vec m ∧
      exec .g { s with dp := { s.dp with opA := s.h, opB := s.n, opC := m } } = .next s₂ ∧ s₂.dp.result = .vec h ∧
      exec .add512 { s with dp := { s.dp with opA := s.n, opB := romInc512 } } = .next s₃ ∧ s₃.dp.result = .vec n ∧
      exec .add512 { s with dp := { s.dp with opA := s.sigma, opB := m } } = .next s₄ ∧ s₄.dp.result = .vec sigma ∧
      t.m = m ∧ t.h = h ∧ t.n = n ∧ t.sigma = sigma ∧ t.k = s₂.k ∧ t.t = s₂.t

/-- R216: several cores share nothing: a step of one leaves the whole state of every other as it is. -/
def Obligations.CoresShareNothing : Prop :=
  ∀ (c d : Nat) (cores cores' : List State), c ≠ d → stepCore c cores = .next cores' →
    cores'[d]? = cores[d]? ∧ cores'.length = cores.length ∧
      ∀ s, cores[c]? = some s → ∃ t, step s = .next t ∧ cores'[c]? = some t
end

