-- ==== Sys2Proof/Laws/Bytes.lean ====
section
/-! SUPPORT. Bytes and word lanes: a vector built from bytes or lanes has them, and is determined by them (R6, R8). -/

namespace Sys2Proof.Laws

open Sys2Proof.Machine

theorem getLsbD_byteOf (v : Vec512) (i k : Nat) :
    (byteOf v i).getLsbD k = (decide (k < 8) && v.getLsbD (8 * (63 - i) + k)) := by
  simp [byteOf, BitVec.getLsbD_extractLsb']

theorem getLsbD_laneOf (v : Vec512) (i k : Nat) :
    (laneOf v i).getLsbD k = (decide (k < 64) && v.getLsbD (64 * (7 - i) + k)) := by
  simp [laneOf, BitVec.getLsbD_extractLsb']

theorem getLsbD_ofBytesUpTo (f : Nat → Byte) (n k : Nat) :
    (ofBytesUpTo f n).getLsbD k =
      (decide (k < 512) && (decide (k < 8 * n) && (f (n - 1 - k / 8)).getLsbD (k % 8))) := by
  induction n generalizing k with
  | zero => simp [ofBytesUpTo]
  | succ n ih =>
    rw [ofBytesUpTo, BitVec.getLsbD_or, BitVec.getLsbD_shiftLeft, BitVec.getLsbD_setWidth, ih]
    by_cases h8 : k < 8
    · have e1 : n - k / 8 = n := by omega
      have e2 : k % 8 = k := by omega
      simp [h8, e1, e2, show k < 8 * (n + 1) by omega]
    · have e1 : n - 1 - (k - 8) / 8 = n + 1 - 1 - k / 8 := by omega
      have e2 : (k - 8) % 8 = k % 8 := by omega
      have e3 : (k - 8 < 8 * n) = (k < 8 * (n + 1)) := by rw [eq_iff_iff]; omega
      have e4 : (f n).getLsbD k = false := BitVec.getLsbD_of_ge _ _ (by omega)
      by_cases h512 : k < 512
      · simp only [e1, e2, e3, e4, h8, h512, show k - 8 < 512 by omega]; simp
      · simp [h512]

theorem getLsbD_ofLanesUpTo (f : Nat → Word64) (n k : Nat) :
    (ofLanesUpTo f n).getLsbD k =
      (decide (k < 512) && (decide (k < 64 * n) && (f (n - 1 - k / 64)).getLsbD (k % 64))) := by
  induction n generalizing k with
  | zero => simp [ofLanesUpTo]
  | succ n ih =>
    rw [ofLanesUpTo, BitVec.getLsbD_or, BitVec.getLsbD_shiftLeft, BitVec.getLsbD_setWidth, ih]
    by_cases h8 : k < 64
    · have e1 : n - k / 64 = n := by omega
      have e2 : k % 64 = k := by omega
      simp [h8, e1, e2, show k < 64 * (n + 1) by omega]
    · have e1 : n - 1 - (k - 64) / 64 = n + 1 - 1 - k / 64 := by omega
      have e2 : (k - 64) % 64 = k % 64 := by omega
      have e3 : (k - 64 < 64 * n) = (k < 64 * (n + 1)) := by rw [eq_iff_iff]; omega
      have e4 : (f n).getLsbD k = false := BitVec.getLsbD_of_ge _ _ (by omega)
      by_cases h512 : k < 512
      · simp only [e1, e2, e3, e4, h8, h512, show k - 64 < 512 by omega]; simp
      · simp [h512]

/-- A vector built from bytes has them. -/
@[simp] theorem byteOf_ofBytes (f : Nat → Byte) (i : Nat) (h : i < 64) : byteOf (ofBytes f) i = f i := by
  apply BitVec.eq_of_getLsbD_eq
  intro k hk
  rw [getLsbD_byteOf, ofBytes, getLsbD_ofBytesUpTo]
  have e1 : 64 - 1 - (8 * (63 - i) + k) / 8 = i := by omega
  have e2 : (8 * (63 - i) + k) % 8 = k := by omega
  simp [e1, e2, hk, show 8 * (63 - i) + k < 512 by omega]

/-- A vector built from word lanes has them. -/
@[simp] theorem laneOf_ofLanes (f : Nat → Word64) (i : Nat) (h : i < 8) : laneOf (ofLanes f) i = f i := by
  apply BitVec.eq_of_getLsbD_eq
  intro k hk
  rw [getLsbD_laneOf, ofLanes, getLsbD_ofLanesUpTo]
  have e1 : 8 - 1 - (64 * (7 - i) + k) / 64 = i := by omega
  have e2 : (64 * (7 - i) + k) % 64 = k := by omega
  simp [e1, e2, hk, show 64 * (7 - i) + k < 512 by omega]

/-- A vector is determined by its 64 bytes. -/
theorem eq_of_byteOf {a b : Vec512} (h : ∀ i < 64, byteOf a i = byteOf b i) : a = b := by
  apply BitVec.eq_of_getLsbD_eq
  intro k hk
  have := congrArg (fun x => x.getLsbD (k % 8)) (h (63 - k / 8) (by omega))
  simp only [getLsbD_byteOf] at this
  have e : 8 * (63 - (63 - k / 8)) + k % 8 = k := by omega
  simpa [e, show k % 8 < 8 by omega] using this

/-- A vector is determined by its 8 word lanes. -/
theorem eq_of_laneOf {a b : Vec512} (h : ∀ k < 8, laneOf a k = laneOf b k) : a = b := by
  apply BitVec.eq_of_getLsbD_eq
  intro k hk
  have := congrArg (fun x => x.getLsbD (k % 64)) (h (7 - k / 64) (by omega))
  simp only [getLsbD_laneOf] at this
  have e : 64 * (7 - (7 - k / 64)) + k % 64 = k := by omega
  simpa [e, show k % 64 < 64 by omega] using this

/-- `ofBytes` of a vector's own bytes is the vector. -/
theorem ofBytes_byteOf (v : Vec512) : ofBytes (byteOf v) = v :=
  eq_of_byteOf fun i hi => byteOf_ofBytes _ i hi

theorem byteOf_xor (a b : Vec512) (i : Nat) : byteOf (a ^^^ b) i = byteOf a i ^^^ byteOf b i := by
  apply BitVec.eq_of_getLsbD_eq
  intro k hk
  simp only [getLsbD_byteOf, BitVec.getLsbD_xor, hk, decide_true, Bool.true_and]

theorem laneOf_xor (a b : Vec512) (i : Nat) : laneOf (a ^^^ b) i = laneOf a i ^^^ laneOf b i := by
  apply BitVec.eq_of_getLsbD_eq
  intro k hk
  simp only [getLsbD_laneOf, BitVec.getLsbD_xor, hk, decide_true, Bool.true_and]

/-- A byte is a digit of `int(v)` in base 256 (R6). -/
theorem toNat_byteOf (v : Vec512) (i : Nat) : (byteOf v i).toNat = v.toNat / 256 ^ (63 - i) % 256 := by
  rw [byteOf, BitVec.extractLsb'_toNat, Nat.shiftRight_eq_div_pow, Nat.pow_mul]

/-- The digits below byte `n - 1` determine the number below `256^n`. -/
theorem toNat_ofBytesUpTo_succ (f : Nat → Byte) (n : Nat) (h : n < 64) :
    (ofBytesUpTo f (n + 1)).toNat = (ofBytesUpTo f n).toNat * 256 + (f n).toNat := by
  have lt : (ofBytesUpTo f n).toNat < 2 ^ (8 * n) := by
    apply Nat.lt_pow_two_of_testBit
    intro i hi
    have e := getLsbD_ofBytesUpTo f n i
    rw [BitVec.getLsbD] at e
    simp [e, show ¬ i < 8 * n by omega]
  have lt2 : (ofBytesUpTo f n).toNat * 256 < 2 ^ 512 := by
    have : 2 ^ (8 * n) * 256 ≤ 2 ^ 512 := by
      rw [show (256 : Nat) = 2 ^ 8 from rfl, ← Nat.pow_add]
      exact Nat.pow_le_pow_right (by decide) (by omega)
    exact Nat.lt_of_lt_of_le (Nat.mul_lt_mul_of_pos_right lt (by decide)) this
  have fb := (f n).isLt
  rw [ofBytesUpTo, BitVec.toNat_or, BitVec.toNat_shiftLeft, BitVec.toNat_setWidth, Nat.shiftLeft_eq,
    show (2 : Nat) ^ 8 = 256 from rfl, Nat.mod_eq_of_lt lt2,
    Nat.mod_eq_of_lt (Nat.lt_of_lt_of_le fb (Nat.pow_le_pow_right (by decide) (by decide)))]
  have := (Nat.two_pow_add_eq_or_of_lt (i := 8) (b := (f n).toNat) fb (ofBytesUpTo f n).toNat)
  rw [← Nat.mul_comm] at this
  exact this.symm

end Sys2Proof.Laws
end

