-- ==== Sys2Proof/Laws/Memory.lean ====
section
/-! SUPPORT. The message memory: read after write, and that every memory operation keeps the canonical form. -/

namespace Sys2Proof.Laws

open Sys2Proof.Machine

/-- The empty memory is canonical. -/
theorem wf_nil : Memory.wf [] = true := rfl

theorem wfFrom_mono {lo lo' : Nat} (m : Memory) (h : lo ≤ lo') (hm : Memory.wfFrom lo' m = true) :
    Memory.wfFrom lo m = true := by
  cases m with
  | nil => rfl
  | cons c rest =>
    simp only [Memory.wfFrom, Bool.and_eq_true, decide_eq_true_eq] at hm ⊢
    exact ⟨⟨by omega, hm.1.2⟩, hm.2⟩

/-- In a memory whose offsets start at `lo`, no smaller offset is listed. -/
theorem byteAt_of_lt {lo a : Nat} (m : Memory) (h : a < lo) (hm : Memory.wfFrom lo m = true) :
    m.byteAt a = none := by
  induction m generalizing lo with
  | nil => rfl
  | cons c rest ih =>
    simp only [Memory.wfFrom, Bool.and_eq_true, decide_eq_true_eq] at hm
    rw [Memory.byteAt, if_neg (by omega)]
    exact ih (lo := c.1 + 1) (by omega) hm.2

theorem wfFrom_put {lo a : Nat} (b : Byte) (m : Memory) (hlo : lo ≤ a) (ha : a < Config.messageSpace)
    (hm : Memory.wfFrom lo m = true) : Memory.wfFrom lo (m.put a b) = true := by
  induction m generalizing lo with
  | nil => simp [Memory.put, Memory.wfFrom, hlo, ha]
  | cons c rest ih =>
    simp only [Memory.wfFrom, Bool.and_eq_true, decide_eq_true_eq] at hm
    rw [Memory.put]
    split
    · simp only [Memory.wfFrom, Bool.and_eq_true, decide_eq_true_eq]
      exact ⟨⟨hlo, ha⟩, ⟨by omega, hm.1.2⟩, hm.2⟩
    · split
      · rename_i e
        simp only [Memory.wfFrom, Bool.and_eq_true, decide_eq_true_eq]
        exact ⟨⟨hlo, ha⟩, e ▸ hm.2⟩
      · simp only [Memory.wfFrom, Bool.and_eq_true, decide_eq_true_eq]
        exact ⟨hm.1, ih (by omega) hm.2⟩

theorem wfFrom_erase {lo : Nat} (a : Nat) (m : Memory) (hm : Memory.wfFrom lo m = true) :
    Memory.wfFrom lo (m.erase a) = true := by
  induction m generalizing lo with
  | nil => rfl
  | cons c rest ih =>
    simp only [Memory.wfFrom, Bool.and_eq_true, decide_eq_true_eq] at hm
    rw [Memory.erase]
    split
    · exact wfFrom_mono rest (by omega) hm.2
    · simp only [Memory.wfFrom, Bool.and_eq_true, decide_eq_true_eq]
      exact ⟨hm.1, ih hm.2⟩

/-- Writing a byte keeps the canonical form. -/
theorem wf_write (m : Memory) (a : Nat) (b : Byte) (hm : m.wf = true) : (m.write a b).wf = true := by
  rw [Memory.write]
  split
  · exact wfFrom_put b m (Nat.zero_le _) ‹_› hm
  · exact hm

/-- Withdrawing a byte keeps the canonical form. -/
theorem wf_erase (m : Memory) (a : Nat) (hm : m.wf = true) : (m.erase a).wf = true :=
  wfFrom_erase a m hm

/-- Placing bytes keeps the canonical form. -/
theorem wf_writeList (m : Memory) (a : Nat) (bs : List Byte) (hm : m.wf = true) :
    (m.writeList a bs).wf = true := by
  induction bs generalizing m a with
  | nil => exact hm
  | cons b bs ih => exact ih _ _ (wf_write m a b hm)

theorem byteAt_put (m : Memory) (a a' : Nat) (b : Byte) :
    (m.put a b).byteAt a' = if a = a' then some b else m.byteAt a' := by
  induction m with
  | nil => simp [Memory.put, Memory.byteAt]
  | cons c rest ih =>
    rw [Memory.put]
    split
    · simp [Memory.byteAt]
    · split
      · rename_i e
        subst e
        simp only [Memory.byteAt]
        split <;> rfl
      · simp only [Memory.byteAt, ih]
        split
        · rw [if_neg (by omega)]
        · rfl

/-- A byte written is the byte read, and every other offset reads as before. -/
theorem byteAt_write (m : Memory) (a a' : Nat) (b : Byte) (ha : a < Config.messageSpace) :
    (m.write a b).byteAt a' = if a = a' then some b else m.byteAt a' := by
  rw [Memory.write, if_pos ha, byteAt_put]

theorem byteAt_erase_from {lo : Nat} (m : Memory) (a a' : Nat) (hm : Memory.wfFrom lo m = true) :
    (m.erase a).byteAt a' = if a = a' then none else m.byteAt a' := by
  induction m generalizing lo with
  | nil => simp [Memory.erase, Memory.byteAt]
  | cons c rest ih =>
    simp only [Memory.wfFrom, Bool.and_eq_true, decide_eq_true_eq] at hm
    rw [Memory.erase]
    split
    · rename_i e
      split
      · exact byteAt_of_lt (lo := c.1 + 1) rest (by omega) hm.2
      · rw [Memory.byteAt, if_neg (by omega)]
    · rw [Memory.byteAt, ih hm.2, Memory.byteAt]
      split
      · rw [if_neg (by omega)]
      · rfl

/-- A withdrawn byte cannot be supplied, and every other offset reads as before. -/
theorem byteAt_erase (m : Memory) (a a' : Nat) (hm : m.wf = true) :
    (m.erase a).byteAt a' = if a = a' then none else m.byteAt a' :=
  byteAt_erase_from m a a' hm

/-- What `MemRead` answers when every byte can be supplied: byte `i` of the answer is the byte at `addr + i` (R56). -/
theorem memRead_eq_some {m : Memory} {addr n : Nat} {bs : List Byte} :
    memRead m addr n = some bs ↔
      bs.length = n ∧ ∀ i, i < n → m.byteAt (addr + i) = bs[i]? := by
  induction n generalizing addr bs with
  | zero =>
    simp only [memRead, Option.some.injEq, Nat.not_lt_zero, false_implies, implies_true, and_true,
      List.length_eq_zero_iff]
    exact eq_comm
  | succ n ih =>
    rw [memRead]
    cases hb : m.byteAt addr with
    | none =>
      simp only [reduceCtorEq, false_iff, not_and]
      intro hl h
      have := h 0 (by omega)
      rw [Nat.add_zero, hb, eq_comm, List.getElem?_eq_none_iff] at this
      omega
    | some b =>
      cases hr : memRead m (addr + 1) n with
      | none =>
        simp only [reduceCtorEq, false_iff, not_and]
        intro hl h
        cases bs with
        | nil => simp at hl
        | cons x xs =>
          have : memRead m (addr + 1) n = some xs := by
            rw [ih]
            refine ⟨by simpa using hl, fun i hi => ?_⟩
            have := h (i + 1) (by omega)
            rwa [List.getElem?_cons_succ, show addr + (i + 1) = addr + 1 + i by omega] at this
          rw [hr] at this
          cases this
      | some r =>
        obtain ⟨hl, hi⟩ := ih.mp hr
        simp only [Option.some.injEq]
        constructor
        · rintro rfl
          refine ⟨by simp [hl], fun i h => ?_⟩
          cases i with
          | zero => simpa using hb
          | succ i =>
            rw [List.getElem?_cons_succ, show addr + (i + 1) = addr + 1 + i by omega]
            exact hi i (by omega)
        · rintro ⟨hl', h⟩
          cases bs with
          | nil => simp at hl'
          | cons x xs =>
            have h0 := h 0 (by omega)
            rw [Nat.add_zero, hb] at h0
            have : memRead m (addr + 1) n = some xs := by
              rw [ih]
              refine ⟨by simpa using hl', fun i hi' => ?_⟩
              have := h (i + 1) (by omega)
              rwa [List.getElem?_cons_succ, show addr + (i + 1) = addr + 1 + i by omega] at this
            rw [hr] at this
            simp only [Option.some.injEq] at this
            simp only [List.getElem?_cons_zero, Option.some.injEq] at h0
            rw [h0, this]

/-- `MemRead` answers `fault` exactly when one of the bytes cannot be supplied (R56). -/
theorem memRead_eq_none {m : Memory} {addr n : Nat} :
    memRead m addr n = none ↔ ∃ i, i < n ∧ m.byteAt (addr + i) = none := by
  induction n generalizing addr with
  | zero => simp [memRead]
  | succ n ih =>
    rw [memRead]
    cases hb : m.byteAt addr with
    | none => simpa using ⟨0, by omega, by simpa using hb⟩
    | some b =>
      cases hr : memRead m (addr + 1) n with
      | none =>
        obtain ⟨i, hi, h⟩ := ih.mp hr
        simp only [true_iff]
        exact ⟨i + 1, by omega, by rwa [show addr + (i + 1) = addr + 1 + i by omega]⟩
      | some r =>
        simp only [reduceCtorEq, false_iff, not_exists, not_and]
        intro i hi h
        cases i with
        | zero => rw [Nat.add_zero, hb] at h; cases h
        | succ i =>
          have : memRead m (addr + 1) n = none :=
            ih.mpr ⟨i, by omega, by rwa [show addr + 1 + i = addr + (i + 1) by omega]⟩
          rw [hr] at this
          cases this

/-- Bytes placed from offset `a` on are the bytes read there, and every other offset reads as before (R90). -/
theorem byteAt_writeList (m : Memory) (a : Nat) (bs : List Byte) (h : a + bs.length ≤ Config.messageSpace) (x : Nat) :
    (m.writeList a bs).byteAt x = if a ≤ x ∧ x < a + bs.length then bs[x - a]? else m.byteAt x := by
  induction bs generalizing m a with
  | nil => simp [Memory.writeList]
  | cons b bs ih =>
    simp only [List.length_cons] at h ⊢
    rw [Memory.writeList, ih _ _ (by omega), byteAt_write _ _ _ _ (by omega)]
    by_cases hx : a = x
    · subst hx
      simp
    · rw [if_neg hx]
      by_cases h1 : a + 1 ≤ x ∧ x < a + 1 + bs.length
      · rw [if_pos h1, if_pos (by omega), show x - a = (x - (a + 1)) + 1 by omega, List.getElem?_cons_succ]
      · rw [if_neg h1, if_neg (by omega)]

/-- The answer of `MemRead` depends on the bytes asked for alone. -/
theorem memRead_congr {m m' : Memory} {a n : Nat} (h : ∀ i < n, m'.byteAt (a + i) = m.byteAt (a + i)) :
    memRead m' a n = memRead m a n := by
  induction n generalizing a with
  | zero => rfl
  | succ n ih =>
    have h0 := h 0 (by omega)
    rw [Nat.add_zero] at h0
    rw [memRead, memRead, h0,
      ih fun i hi => by rw [show a + 1 + i = a + (i + 1) by omega]; exact h _ (by omega)]

end Sys2Proof.Laws
end

