-- ==== Sys2Proof/Laws/State.lean ====
section
/-! SUPPORT. One lemma per field per update of State: what each shared update writes and what it leaves alone. -/

namespace Sys2Proof.Laws

open Sys2Proof.Machine

/-! ### `raise` (R206) -/

@[simp] theorem raise_h (e : CoreError) (info : Word64) (s : State) :
    (raise e info s).h = s.h := rfl

@[simp] theorem raise_n (e : CoreError) (info : Word64) (s : State) :
    (raise e info s).n = s.n := rfl

@[simp] theorem raise_sigma (e : CoreError) (info : Word64) (s : State) :
    (raise e info s).sigma = s.sigma := rfl

@[simp] theorem raise_m (e : CoreError) (info : Word64) (s : State) :
    (raise e info s).m = s.m := rfl

@[simp] theorem raise_k (e : CoreError) (info : Word64) (s : State) :
    (raise e info s).k = s.k := rfl

@[simp] theorem raise_t (e : CoreError) (info : Word64) (s : State) :
    (raise e info s).t = s.t := rfl

@[simp] theorem raise_digest (e : CoreError) (info : Word64) (s : State) :
    (raise e info s).digest = s.digest := rfl

@[simp] theorem raise_cfg (e : CoreError) (info : Word64) (s : State) :
    (raise e info s).cfg = if e = .config then none else s.cfg := rfl

@[simp] theorem raise_len (e : CoreError) (info : Word64) (s : State) :
    (raise e info s).len = s.len := rfl

@[simp] theorem raise_pos (e : CoreError) (info : Word64) (s : State) :
    (raise e info s).pos = s.pos := rfl

@[simp] theorem raise_phase (e : CoreError) (info : Word64) (s : State) :
    (raise e info s).phase = .idle := rfl

@[simp] theorem raise_done (e : CoreError) (info : Word64) (s : State) :
    (raise e info s).done = false := rfl

@[simp] theorem raise_errCode (e : CoreError) (info : Word64) (s : State) :
    (raise e info s).errCode = some e := rfl

@[simp] theorem raise_errInfo (e : CoreError) (info : Word64) (s : State) :
    (raise e info s).errInfo = info := rfl

@[simp] theorem raise_msg (e : CoreError) (info : Word64) (s : State) :
    (raise e info s).msg = s.msg := rfl

@[simp] theorem raise_host (e : CoreError) (info : Word64) (s : State) :
    (raise e info s).host = s.host := rfl

@[simp] theorem raise_dp (e : CoreError) (info : Word64) (s : State) :
    (raise e info s).dp = s.dp := rfl

@[simp] theorem raise_draws (e : CoreError) (info : Word64) (s : State) :
    (raise e info s).draws = s.draws := rfl

/-! ### `resetCore` (R230) -/

@[simp] theorem resetCore_h (s : State) :
    (resetCore s).h = Config.resetVec (6 * s.draws) := rfl

@[simp] theorem resetCore_n (s : State) :
    (resetCore s).n = Config.resetVec (6 * s.draws + 1) := rfl

@[simp] theorem resetCore_sigma (s : State) :
    (resetCore s).sigma = Config.resetVec (6 * s.draws + 2) := rfl

@[simp] theorem resetCore_m (s : State) :
    (resetCore s).m = Config.resetVec (6 * s.draws + 3) := rfl

@[simp] theorem resetCore_k (s : State) :
    (resetCore s).k = Config.resetVec (6 * s.draws + 4) := rfl

@[simp] theorem resetCore_t (s : State) :
    (resetCore s).t = Config.resetVec (6 * s.draws + 5) := rfl

@[simp] theorem resetCore_digest (s : State) :
    (resetCore s).digest = Vector.ofFn fun j => Config.resetLane s.draws j.val := rfl

@[simp] theorem resetCore_cfg (s : State) :
    (resetCore s).cfg = none := rfl

@[simp] theorem resetCore_len (s : State) :
    (resetCore s).len = Config.resetWord (2 * s.draws) := rfl

@[simp] theorem resetCore_pos (s : State) :
    (resetCore s).pos = Config.resetWord (2 * s.draws + 1) := rfl

@[simp] theorem resetCore_phase (s : State) :
    (resetCore s).phase = .idle := rfl

@[simp] theorem resetCore_done (s : State) :
    (resetCore s).done = false := rfl

@[simp] theorem resetCore_errCode (s : State) :
    (resetCore s).errCode = none := rfl

@[simp] theorem resetCore_errInfo (s : State) :
    (resetCore s).errInfo = 0#64 := rfl

@[simp] theorem resetCore_msg (s : State) :
    (resetCore s).msg = s.msg := rfl

@[simp] theorem resetCore_host (s : State) :
    (resetCore s).host = s.host := rfl

@[simp] theorem resetCore_dp (s : State) :
    (resetCore s).dp = { s.dp with sel := 0#4 } := rfl

@[simp] theorem resetCore_draws (s : State) :
    (resetCore s).draws = s.draws + 1 := rfl

/-! ### `dpReturn` (R125) -/

@[simp] theorem dpReturn_h (r : DpResult) (s : State) :
    (dpReturn r s).h = s.h := rfl

@[simp] theorem dpReturn_n (r : DpResult) (s : State) :
    (dpReturn r s).n = s.n := rfl

@[simp] theorem dpReturn_sigma (r : DpResult) (s : State) :
    (dpReturn r s).sigma = s.sigma := rfl

@[simp] theorem dpReturn_m (r : DpResult) (s : State) :
    (dpReturn r s).m = s.m := rfl

@[simp] theorem dpReturn_k (r : DpResult) (s : State) :
    (dpReturn r s).k = s.k := rfl

@[simp] theorem dpReturn_t (r : DpResult) (s : State) :
    (dpReturn r s).t = s.t := rfl

@[simp] theorem dpReturn_digest (r : DpResult) (s : State) :
    (dpReturn r s).digest = s.digest := rfl

@[simp] theorem dpReturn_cfg (r : DpResult) (s : State) :
    (dpReturn r s).cfg = s.cfg := rfl

@[simp] theorem dpReturn_len (r : DpResult) (s : State) :
    (dpReturn r s).len = s.len := rfl

@[simp] theorem dpReturn_pos (r : DpResult) (s : State) :
    (dpReturn r s).pos = s.pos := rfl

@[simp] theorem dpReturn_phase (r : DpResult) (s : State) :
    (dpReturn r s).phase = s.phase := rfl

@[simp] theorem dpReturn_done (r : DpResult) (s : State) :
    (dpReturn r s).done = s.done := rfl

@[simp] theorem dpReturn_errCode (r : DpResult) (s : State) :
    (dpReturn r s).errCode = s.errCode := rfl

@[simp] theorem dpReturn_errInfo (r : DpResult) (s : State) :
    (dpReturn r s).errInfo = s.errInfo := rfl

@[simp] theorem dpReturn_msg (r : DpResult) (s : State) :
    (dpReturn r s).msg = s.msg := rfl

@[simp] theorem dpReturn_host (r : DpResult) (s : State) :
    (dpReturn r s).host = s.host := rfl

@[simp] theorem dpReturn_dp (r : DpResult) (s : State) :
    (dpReturn r s).dp = { s.dp with result := r } := rfl

@[simp] theorem dpReturn_draws (r : DpResult) (s : State) :
    (dpReturn r s).draws = s.draws := rfl

/-! ### `clearSelect` -/

@[simp] theorem clearSelect_h (s : State) :
    (clearSelect s).h = s.h := rfl

@[simp] theorem clearSelect_n (s : State) :
    (clearSelect s).n = s.n := rfl

@[simp] theorem clearSelect_sigma (s : State) :
    (clearSelect s).sigma = s.sigma := rfl

@[simp] theorem clearSelect_m (s : State) :
    (clearSelect s).m = s.m := rfl

@[simp] theorem clearSelect_k (s : State) :
    (clearSelect s).k = s.k := rfl

@[simp] theorem clearSelect_t (s : State) :
    (clearSelect s).t = s.t := rfl

@[simp] theorem clearSelect_digest (s : State) :
    (clearSelect s).digest = s.digest := rfl

@[simp] theorem clearSelect_cfg (s : State) :
    (clearSelect s).cfg = s.cfg := rfl

@[simp] theorem clearSelect_len (s : State) :
    (clearSelect s).len = s.len := rfl

@[simp] theorem clearSelect_pos (s : State) :
    (clearSelect s).pos = s.pos := rfl

@[simp] theorem clearSelect_phase (s : State) :
    (clearSelect s).phase = s.phase := rfl

@[simp] theorem clearSelect_done (s : State) :
    (clearSelect s).done = s.done := rfl

@[simp] theorem clearSelect_errCode (s : State) :
    (clearSelect s).errCode = s.errCode := rfl

@[simp] theorem clearSelect_errInfo (s : State) :
    (clearSelect s).errInfo = s.errInfo := rfl

@[simp] theorem clearSelect_msg (s : State) :
    (clearSelect s).msg = s.msg := rfl

@[simp] theorem clearSelect_host (s : State) :
    (clearSelect s).host = s.host := rfl

@[simp] theorem clearSelect_dp (s : State) :
    (clearSelect s).dp = { s.dp with sel := 0#4 } := rfl

@[simp] theorem clearSelect_draws (s : State) :
    (clearSelect s).draws = s.draws := rfl

/-! ### `writeWork` (R27) -/

@[simp] theorem writeWork_h (tk : Vec512 × Vec512) (s : State) :
    (writeWork tk s).h = s.h := rfl

@[simp] theorem writeWork_n (tk : Vec512 × Vec512) (s : State) :
    (writeWork tk s).n = s.n := rfl

@[simp] theorem writeWork_sigma (tk : Vec512 × Vec512) (s : State) :
    (writeWork tk s).sigma = s.sigma := rfl

@[simp] theorem writeWork_m (tk : Vec512 × Vec512) (s : State) :
    (writeWork tk s).m = s.m := rfl

@[simp] theorem writeWork_k (tk : Vec512 × Vec512) (s : State) :
    (writeWork tk s).k = tk.2 := rfl

@[simp] theorem writeWork_t (tk : Vec512 × Vec512) (s : State) :
    (writeWork tk s).t = tk.1 := rfl

@[simp] theorem writeWork_digest (tk : Vec512 × Vec512) (s : State) :
    (writeWork tk s).digest = s.digest := rfl

@[simp] theorem writeWork_cfg (tk : Vec512 × Vec512) (s : State) :
    (writeWork tk s).cfg = s.cfg := rfl

@[simp] theorem writeWork_len (tk : Vec512 × Vec512) (s : State) :
    (writeWork tk s).len = s.len := rfl

@[simp] theorem writeWork_pos (tk : Vec512 × Vec512) (s : State) :
    (writeWork tk s).pos = s.pos := rfl

@[simp] theorem writeWork_phase (tk : Vec512 × Vec512) (s : State) :
    (writeWork tk s).phase = s.phase := rfl

@[simp] theorem writeWork_done (tk : Vec512 × Vec512) (s : State) :
    (writeWork tk s).done = s.done := rfl

@[simp] theorem writeWork_errCode (tk : Vec512 × Vec512) (s : State) :
    (writeWork tk s).errCode = s.errCode := rfl

@[simp] theorem writeWork_errInfo (tk : Vec512 × Vec512) (s : State) :
    (writeWork tk s).errInfo = s.errInfo := rfl

@[simp] theorem writeWork_msg (tk : Vec512 × Vec512) (s : State) :
    (writeWork tk s).msg = s.msg := rfl

@[simp] theorem writeWork_host (tk : Vec512 × Vec512) (s : State) :
    (writeWork tk s).host = s.host := rfl

@[simp] theorem writeWork_dp (tk : Vec512 × Vec512) (s : State) :
    (writeWork tk s).dp = s.dp := rfl

@[simp] theorem writeWork_draws (tk : Vec512 × Vec512) (s : State) :
    (writeWork tk s).draws = s.draws := rfl

/-! ### `writeChaining` (R21, R27) -/

@[simp] theorem writeChaining_h (h : Vec512) (tk : Vec512 × Vec512) (s : State) :
    (writeChaining h tk s).h = h := rfl

@[simp] theorem writeChaining_n (h : Vec512) (tk : Vec512 × Vec512) (s : State) :
    (writeChaining h tk s).n = s.n := rfl

@[simp] theorem writeChaining_sigma (h : Vec512) (tk : Vec512 × Vec512) (s : State) :
    (writeChaining h tk s).sigma = s.sigma := rfl

@[simp] theorem writeChaining_m (h : Vec512) (tk : Vec512 × Vec512) (s : State) :
    (writeChaining h tk s).m = s.m := rfl

@[simp] theorem writeChaining_k (h : Vec512) (tk : Vec512 × Vec512) (s : State) :
    (writeChaining h tk s).k = tk.2 := rfl

@[simp] theorem writeChaining_t (h : Vec512) (tk : Vec512 × Vec512) (s : State) :
    (writeChaining h tk s).t = tk.1 := rfl

@[simp] theorem writeChaining_digest (h : Vec512) (tk : Vec512 × Vec512) (s : State) :
    (writeChaining h tk s).digest = s.digest := rfl

@[simp] theorem writeChaining_cfg (h : Vec512) (tk : Vec512 × Vec512) (s : State) :
    (writeChaining h tk s).cfg = s.cfg := rfl

@[simp] theorem writeChaining_len (h : Vec512) (tk : Vec512 × Vec512) (s : State) :
    (writeChaining h tk s).len = s.len := rfl

@[simp] theorem writeChaining_pos (h : Vec512) (tk : Vec512 × Vec512) (s : State) :
    (writeChaining h tk s).pos = s.pos := rfl

@[simp] theorem writeChaining_phase (h : Vec512) (tk : Vec512 × Vec512) (s : State) :
    (writeChaining h tk s).phase = s.phase := rfl

@[simp] theorem writeChaining_done (h : Vec512) (tk : Vec512 × Vec512) (s : State) :
    (writeChaining h tk s).done = s.done := rfl

@[simp] theorem writeChaining_errCode (h : Vec512) (tk : Vec512 × Vec512) (s : State) :
    (writeChaining h tk s).errCode = s.errCode := rfl

@[simp] theorem writeChaining_errInfo (h : Vec512) (tk : Vec512 × Vec512) (s : State) :
    (writeChaining h tk s).errInfo = s.errInfo := rfl

@[simp] theorem writeChaining_msg (h : Vec512) (tk : Vec512 × Vec512) (s : State) :
    (writeChaining h tk s).msg = s.msg := rfl

@[simp] theorem writeChaining_host (h : Vec512) (tk : Vec512 × Vec512) (s : State) :
    (writeChaining h tk s).host = s.host := rfl

@[simp] theorem writeChaining_dp (h : Vec512) (tk : Vec512 × Vec512) (s : State) :
    (writeChaining h tk s).dp = s.dp := rfl

@[simp] theorem writeChaining_draws (h : Vec512) (tk : Vec512 × Vec512) (s : State) :
    (writeChaining h tk s).draws = s.draws := rfl

/-! ### `writeBlock` (R22 to R24, R30) -/

@[simp] theorem writeBlock_h (m n sigma : Vec512) (pos : Word64) (s : State) :
    (writeBlock m n sigma pos s).h = s.h := rfl

@[simp] theorem writeBlock_n (m n sigma : Vec512) (pos : Word64) (s : State) :
    (writeBlock m n sigma pos s).n = n := rfl

@[simp] theorem writeBlock_sigma (m n sigma : Vec512) (pos : Word64) (s : State) :
    (writeBlock m n sigma pos s).sigma = sigma := rfl

@[simp] theorem writeBlock_m (m n sigma : Vec512) (pos : Word64) (s : State) :
    (writeBlock m n sigma pos s).m = m := rfl

@[simp] theorem writeBlock_k (m n sigma : Vec512) (pos : Word64) (s : State) :
    (writeBlock m n sigma pos s).k = s.k := rfl

@[simp] theorem writeBlock_t (m n sigma : Vec512) (pos : Word64) (s : State) :
    (writeBlock m n sigma pos s).t = s.t := rfl

@[simp] theorem writeBlock_digest (m n sigma : Vec512) (pos : Word64) (s : State) :
    (writeBlock m n sigma pos s).digest = s.digest := rfl

@[simp] theorem writeBlock_cfg (m n sigma : Vec512) (pos : Word64) (s : State) :
    (writeBlock m n sigma pos s).cfg = s.cfg := rfl

@[simp] theorem writeBlock_len (m n sigma : Vec512) (pos : Word64) (s : State) :
    (writeBlock m n sigma pos s).len = s.len := rfl

@[simp] theorem writeBlock_pos (m n sigma : Vec512) (pos : Word64) (s : State) :
    (writeBlock m n sigma pos s).pos = pos := rfl

@[simp] theorem writeBlock_phase (m n sigma : Vec512) (pos : Word64) (s : State) :
    (writeBlock m n sigma pos s).phase = s.phase := rfl

@[simp] theorem writeBlock_done (m n sigma : Vec512) (pos : Word64) (s : State) :
    (writeBlock m n sigma pos s).done = s.done := rfl

@[simp] theorem writeBlock_errCode (m n sigma : Vec512) (pos : Word64) (s : State) :
    (writeBlock m n sigma pos s).errCode = s.errCode := rfl

@[simp] theorem writeBlock_errInfo (m n sigma : Vec512) (pos : Word64) (s : State) :
    (writeBlock m n sigma pos s).errInfo = s.errInfo := rfl

@[simp] theorem writeBlock_msg (m n sigma : Vec512) (pos : Word64) (s : State) :
    (writeBlock m n sigma pos s).msg = s.msg := rfl

@[simp] theorem writeBlock_host (m n sigma : Vec512) (pos : Word64) (s : State) :
    (writeBlock m n sigma pos s).host = s.host := rfl

@[simp] theorem writeBlock_dp (m n sigma : Vec512) (pos : Word64) (s : State) :
    (writeBlock m n sigma pos s).dp = s.dp := rfl

@[simp] theorem writeBlock_draws (m n sigma : Vec512) (pos : Word64) (s : State) :
    (writeBlock m n sigma pos s).draws = s.draws := rfl

/-! ### `enterPhase` (R31) -/

@[simp] theorem enterPhase_h (p : Phase) (s : State) :
    (enterPhase p s).h = s.h := rfl

@[simp] theorem enterPhase_n (p : Phase) (s : State) :
    (enterPhase p s).n = s.n := rfl

@[simp] theorem enterPhase_sigma (p : Phase) (s : State) :
    (enterPhase p s).sigma = s.sigma := rfl

@[simp] theorem enterPhase_m (p : Phase) (s : State) :
    (enterPhase p s).m = s.m := rfl

@[simp] theorem enterPhase_k (p : Phase) (s : State) :
    (enterPhase p s).k = s.k := rfl

@[simp] theorem enterPhase_t (p : Phase) (s : State) :
    (enterPhase p s).t = s.t := rfl

@[simp] theorem enterPhase_digest (p : Phase) (s : State) :
    (enterPhase p s).digest = s.digest := rfl

@[simp] theorem enterPhase_cfg (p : Phase) (s : State) :
    (enterPhase p s).cfg = s.cfg := rfl

@[simp] theorem enterPhase_len (p : Phase) (s : State) :
    (enterPhase p s).len = s.len := rfl

@[simp] theorem enterPhase_pos (p : Phase) (s : State) :
    (enterPhase p s).pos = s.pos := rfl

@[simp] theorem enterPhase_phase (p : Phase) (s : State) :
    (enterPhase p s).phase = p := rfl

@[simp] theorem enterPhase_done (p : Phase) (s : State) :
    (enterPhase p s).done = s.done := rfl

@[simp] theorem enterPhase_errCode (p : Phase) (s : State) :
    (enterPhase p s).errCode = s.errCode := rfl

@[simp] theorem enterPhase_errInfo (p : Phase) (s : State) :
    (enterPhase p s).errInfo = s.errInfo := rfl

@[simp] theorem enterPhase_msg (p : Phase) (s : State) :
    (enterPhase p s).msg = s.msg := rfl

@[simp] theorem enterPhase_host (p : Phase) (s : State) :
    (enterPhase p s).host = s.host := rfl

@[simp] theorem enterPhase_dp (p : Phase) (s : State) :
    (enterPhase p s).dp = s.dp := rfl

@[simp] theorem enterPhase_draws (p : Phase) (s : State) :
    (enterPhase p s).draws = s.draws := rfl

/-! ### `initStage` (R160) -/

@[simp] theorem initStage_h (s : State) :
    (initStage s).h = initialChaining s.cfg := rfl

@[simp] theorem initStage_n (s : State) :
    (initStage s).n = romZero512 := rfl

@[simp] theorem initStage_sigma (s : State) :
    (initStage s).sigma = romZero512 := rfl

@[simp] theorem initStage_m (s : State) :
    (initStage s).m = s.m := rfl

@[simp] theorem initStage_k (s : State) :
    (initStage s).k = s.k := rfl

@[simp] theorem initStage_t (s : State) :
    (initStage s).t = s.t := rfl

@[simp] theorem initStage_digest (s : State) :
    (initStage s).digest = s.digest := rfl

@[simp] theorem initStage_cfg (s : State) :
    (initStage s).cfg = s.cfg := rfl

@[simp] theorem initStage_len (s : State) :
    (initStage s).len = s.len := rfl

@[simp] theorem initStage_pos (s : State) :
    (initStage s).pos = 0#64 := rfl

@[simp] theorem initStage_phase (s : State) :
    (initStage s).phase = .absorb := rfl

@[simp] theorem initStage_done (s : State) :
    (initStage s).done = s.done := rfl

@[simp] theorem initStage_errCode (s : State) :
    (initStage s).errCode = s.errCode := rfl

@[simp] theorem initStage_errInfo (s : State) :
    (initStage s).errInfo = s.errInfo := rfl

@[simp] theorem initStage_msg (s : State) :
    (initStage s).msg = s.msg := rfl

@[simp] theorem initStage_host (s : State) :
    (initStage s).host = s.host := rfl

@[simp] theorem initStage_dp (s : State) :
    (initStage s).dp = s.dp := rfl

@[simp] theorem initStage_draws (s : State) :
    (initStage s).draws = s.draws := rfl

/-! ### `withHost` -/

@[simp] theorem withHost_h (hs : List HostAction) (s : State) :
    (withHost hs s).h = s.h := rfl

@[simp] theorem withHost_n (hs : List HostAction) (s : State) :
    (withHost hs s).n = s.n := rfl

@[simp] theorem withHost_sigma (hs : List HostAction) (s : State) :
    (withHost hs s).sigma = s.sigma := rfl

@[simp] theorem withHost_m (hs : List HostAction) (s : State) :
    (withHost hs s).m = s.m := rfl

@[simp] theorem withHost_k (hs : List HostAction) (s : State) :
    (withHost hs s).k = s.k := rfl

@[simp] theorem withHost_t (hs : List HostAction) (s : State) :
    (withHost hs s).t = s.t := rfl

@[simp] theorem withHost_digest (hs : List HostAction) (s : State) :
    (withHost hs s).digest = s.digest := rfl

@[simp] theorem withHost_cfg (hs : List HostAction) (s : State) :
    (withHost hs s).cfg = s.cfg := rfl

@[simp] theorem withHost_len (hs : List HostAction) (s : State) :
    (withHost hs s).len = s.len := rfl

@[simp] theorem withHost_pos (hs : List HostAction) (s : State) :
    (withHost hs s).pos = s.pos := rfl

@[simp] theorem withHost_phase (hs : List HostAction) (s : State) :
    (withHost hs s).phase = s.phase := rfl

@[simp] theorem withHost_done (hs : List HostAction) (s : State) :
    (withHost hs s).done = s.done := rfl

@[simp] theorem withHost_errCode (hs : List HostAction) (s : State) :
    (withHost hs s).errCode = s.errCode := rfl

@[simp] theorem withHost_errInfo (hs : List HostAction) (s : State) :
    (withHost hs s).errInfo = s.errInfo := rfl

@[simp] theorem withHost_msg (hs : List HostAction) (s : State) :
    (withHost hs s).msg = s.msg := rfl

@[simp] theorem withHost_host (hs : List HostAction) (s : State) :
    (withHost hs s).host = hs := rfl

@[simp] theorem withHost_dp (hs : List HostAction) (s : State) :
    (withHost hs s).dp = s.dp := rfl

@[simp] theorem withHost_draws (hs : List HostAction) (s : State) :
    (withHost hs s).draws = s.draws := rfl

/-! ### `withMessage` -/

@[simp] theorem withMessage_h (m : Memory) (s : State) :
    (withMessage m s).h = s.h := rfl

@[simp] theorem withMessage_n (m : Memory) (s : State) :
    (withMessage m s).n = s.n := rfl

@[simp] theorem withMessage_sigma (m : Memory) (s : State) :
    (withMessage m s).sigma = s.sigma := rfl

@[simp] theorem withMessage_m (m : Memory) (s : State) :
    (withMessage m s).m = s.m := rfl

@[simp] theorem withMessage_k (m : Memory) (s : State) :
    (withMessage m s).k = s.k := rfl

@[simp] theorem withMessage_t (m : Memory) (s : State) :
    (withMessage m s).t = s.t := rfl

@[simp] theorem withMessage_digest (m : Memory) (s : State) :
    (withMessage m s).digest = s.digest := rfl

@[simp] theorem withMessage_cfg (m : Memory) (s : State) :
    (withMessage m s).cfg = s.cfg := rfl

@[simp] theorem withMessage_len (m : Memory) (s : State) :
    (withMessage m s).len = s.len := rfl

@[simp] theorem withMessage_pos (m : Memory) (s : State) :
    (withMessage m s).pos = s.pos := rfl

@[simp] theorem withMessage_phase (m : Memory) (s : State) :
    (withMessage m s).phase = s.phase := rfl

@[simp] theorem withMessage_done (m : Memory) (s : State) :
    (withMessage m s).done = s.done := rfl

@[simp] theorem withMessage_errCode (m : Memory) (s : State) :
    (withMessage m s).errCode = s.errCode := rfl

@[simp] theorem withMessage_errInfo (m : Memory) (s : State) :
    (withMessage m s).errInfo = s.errInfo := rfl

@[simp] theorem withMessage_msg (m : Memory) (s : State) :
    (withMessage m s).msg = m := rfl

@[simp] theorem withMessage_host (m : Memory) (s : State) :
    (withMessage m s).host = s.host := rfl

@[simp] theorem withMessage_dp (m : Memory) (s : State) :
    (withMessage m s).dp = s.dp := rfl

@[simp] theorem withMessage_draws (m : Memory) (s : State) :
    (withMessage m s).draws = s.draws := rfl

end Sys2Proof.Laws
end

