-- ==== Sys2Proof/Laws/Ops.lean ====
section
/-! SUPPORT. What each shared operation, stage, command and the step itself can do, said once, for later proofs to cite. -/

namespace Sys2Proof.Laws

open Sys2Proof.Machine

/-! ### Status -/

theorem busy_iff (s : State) : busy s = true ↔ s.phase ≠ .idle := by simp [busy]

theorem fatal_iff (s : State) :
    fatal s = true ↔ s.errCode = some .invariantViolation ∨ s.errCode = some .illegalCommand := by
  simp [fatal]

/-- A command is accepted exactly at rest with no error or a configuration error recorded (R190). -/
theorem accepts_iff (s : State) :
    accepts s = true ↔ s.phase = .idle ∧ (s.errCode = none ∨ s.errCode = some .config) := by
  simp only [accepts, busy, fatal, Bool.and_eq_true, Bool.not_eq_true', decide_eq_false_iff_not, not_not,
    not_or, and_congr_right_iff]
  intro _
  cases s.errCode with
  | none => simp
  | some e => cases e <;> simp

/-- `FULL` and not `TAIL` is due where 64 bytes or more remain (R163). -/
theorem fullBlockDue_eq (s : State) : fullBlockDue s = decide (64 ≤ s.len.toNat - s.pos.toNat) := rfl

theorem fullBlockDue_iff (s : State) : fullBlockDue s = true ↔ 64 ≤ s.len.toNat - s.pos.toNat := by
  simp [fullBlockDue_eq]

/-! ### Commands -/

theorem offer_of_accepts {s : State} (h : accepts s = true) (e : State) : offer s e = e := if_pos h

theorem offer_of_not_accepts {s : State} (h : accepts s = false) (e : State) : offer s e = s := by
  simp [offer, h]

theorem widthOf_eq (arg : Word64) :
    widthOf arg = (if arg = 256#64 then some .w256 else if arg = 512#64 then some .w512 else none) := rfl

/-- What an accepted `CONSTRUCT` does (R191). -/
theorem constructEffect_cases (arg : Word64) (s : State) :
    (arg ≠ 256#64 ∧ arg ≠ 512#64 ∧ constructEffect arg s = raise .config arg s) ∨
    (∃ w, widthOf arg = some w ∧ constructEffect arg s =
      { s with cfg := some w, done := false, errCode := clearConfigError s.errCode }) := by
  unfold constructEffect
  cases hw : widthOf arg with
  | none =>
    refine .inl ⟨?_, ?_, rfl⟩ <;> rintro rfl <;> simp [widthOf] at hw
  | some w => exact .inr ⟨w, rfl, rfl⟩

/-- What an accepted `COMPUTE` does (R192). -/
theorem computeEffect_cases (arg : Word64) (s : State) :
    (s.cfg = none ∧ computeEffect arg s = raise .config 0#64 s) ∨
    (s.cfg ≠ none ∧ computeEffect arg s = { s with len := arg, done := false, phase := .init }) := by
  unfold computeEffect
  cases h : s.cfg with
  | none => exact .inl ⟨rfl, rfl⟩
  | some w => exact .inr ⟨by simp, rfl⟩

/-! ### Stages -/

/-- A stage answers a next state exactly where it is due, and then its effect. -/
theorem whenDue_eq_next {due : Bool} {t u : State} : whenDue due t = .next u ↔ due = true ∧ t = u := by
  cases due <;> simp [whenDue]

/-- The registers a block writes, as one record update. -/
theorem enterPhase_writeBlock (p : Phase) (m n sigma h : Vec512) (pos : Word64) (tk : Vec512 × Vec512) (s : State) :
    enterPhase p (writeBlock m n sigma pos (writeChaining h tk s)) =
      { s with h := h, t := tk.1, k := tk.2, m := m, n := n, sigma := sigma, pos := pos, phase := p } := rfl

/-- The registers a finalization compression writes, as one record update. -/
theorem enterPhase_writeChaining (p : Phase) (h : Vec512) (tk : Vec512 × Vec512) (s : State) :
    enterPhase p (writeChaining h tk s) = { s with h := h, t := tk.1, k := tk.2, phase := p } := rfl

/-- What `E` and `G` by themselves write, as one record update. -/
theorem dpReturn_writeWork (r : DpResult) (tk : Vec512 × Vec512) (s : State) :
    dpReturn r (writeWork tk s) = { s with t := tk.1, k := tk.2, dp := { s.dp with result := r } } := rfl

/-- What `FULL` does (R164, R202). The compressed values are named, so that no later proof evaluates them. -/
theorem fullStage_cases (s : State) :
    (memRead s.msg s.pos.toNat 64 = none ∧ fullStage s = raise .invariantViolation s.pos s) ∨
    (∃ (b : List Byte) (m h n sigma : Vec512) (tk : Vec512 × Vec512),
      memRead s.msg s.pos.toNat 64 = some b ∧ m = ingest b ∧ h = compress s.h s.n m ∧ tk = compressWork s.h s.n m ∧
      n = add512 s.n romInc512 ∧ sigma = add512 s.sigma m ∧
      fullStage s = { s with
        h := h, t := tk.1, k := tk.2, m := m, n := n, sigma := sigma, pos := s.pos + 64#64, phase := .absorb }) := by
  unfold fullStage
  cases memRead s.msg s.pos.toNat 64 with
  | none => exact .inl ⟨rfl, rfl⟩
  | some b => exact .inr ⟨b, _, _, _, _, _, rfl, rfl, rfl, rfl, rfl, rfl, enterPhase_writeBlock ..⟩

/-- What `TAIL` does (R165, R202), with the compressed values named. -/
theorem tailStage_cases (s : State) :
    (memRead s.msg s.pos.toNat (remaining s) = none ∧ tailStage s = raise .invariantViolation s.pos s) ∨
    (∃ (b : List Byte) (m h n sigma : Vec512) (tk : Vec512 × Vec512),
      memRead s.msg s.pos.toNat (remaining s) = some b ∧ m = pad b ∧ h = compress s.h s.n m ∧
      tk = compressWork s.h s.n m ∧ n = add512 s.n (vec (8 * remaining s)) ∧ sigma = add512 s.sigma m ∧
      tailStage s = { s with
        h := h, t := tk.1, k := tk.2, m := m, n := n, sigma := sigma,
        pos := s.pos + BitVec.ofNat 64 (remaining s), phase := .finN }) := by
  unfold tailStage
  cases memRead s.msg s.pos.toNat (remaining s) with
  | none => exact .inl ⟨rfl, rfl⟩
  | some b => exact .inr ⟨b, _, _, _, _, _, rfl, rfl, rfl, rfl, rfl, rfl, enterPhase_writeBlock ..⟩

/-- What `FIN_N` does (R166), with the compressed values named. -/
theorem finNStage_cases (s : State) :
    ∃ (h : Vec512) (tk : Vec512 × Vec512), h = compress s.h romZero512 s.n ∧ tk = compressWork s.h romZero512 s.n ∧
      finNStage s = { s with h := h, t := tk.1, k := tk.2, phase := .finS } :=
  ⟨_, _, rfl, rfl, enterPhase_writeChaining ..⟩

/-- What `FIN_S` does (R167), with the compressed values named. -/
theorem finSStage_cases (s : State) :
    ∃ (h : Vec512) (tk : Vec512 × Vec512),
      h = compress s.h romZero512 s.sigma ∧ tk = compressWork s.h romZero512 s.sigma ∧
      finSStage s = { s with h := h, t := tk.1, k := tk.2, phase := .out } :=
  ⟨_, _, rfl, rfl, enterPhase_writeChaining ..⟩

/-- What `OUT` does (R168): lanes, `DONE`, `PHASE` and the draw counter, nothing else. -/
theorem outStage_cases (s : State) :
    ∃ (d : Vector Byte 64) (k : Nat),
      outStage s = { s with digest := d, done := true, phase := .idle, draws := k } ∧
      (s.cfg = some .w512 → d = rev512 s.h) ∧ (s.cfg = some .w256 → d = digest256 s) ∧
      (s.cfg = none → d = s.digest) := by
  cases h : s.cfg with
  | none => exact ⟨s.digest, s.draws, by rw [outStage, h], by simp⟩
  | some w =>
    cases w with
    | w256 => exact ⟨digest256 s, s.draws + 1, by rw [outStage, h], by simp⟩
    | w512 => exact ⟨rev512 s.h, s.draws, by rw [outStage, h], by simp⟩

/-! ### The step -/

/-- The state after the controller's step (R172): the effect of the stage the phase selects, and no change in `IDLE`. -/
def stageEffect (s : State) : State :=
  match s.phase with
  | .idle => s
  | .init => initStage s
  | .absorb => if fullBlockDue s then fullStage s else tailStage s
  | .finN => finNStage s
  | .finS => finSStage s
  | .out => outStage s

/-- The controller's step always goes on, with the effect of the stage its phase selects. -/
theorem controllerStep_eq (s : State) : controllerStep s = .next (stageEffect s) := by
  unfold controllerStep stageEffect
  cases hp : s.phase with
  | absorb => cases hd : fullBlockDue s <;> simp [phaseCode, decodeStage, exec, execFull, execTail, whenDue, hp, hd]
  | _ => simp [phaseCode, decodeStage, exec, execInit, execFinN, execFinS, execOut, whenDue, hp]

/-- The controller runs the stage its phase code and the remaining length decode to. -/
theorem controllerStep_of_decode {s : State} {i : Instr}
    (h : decodeStage (phaseCode s.phase) (fullBlockDue s) = .ok i) : controllerStep s = exec i s := by
  rw [controllerStep, h]

theorem stageEffect_idle {s : State} (h : s.phase = .idle) : stageEffect s = s := by
  rw [stageEffect, h]

/-- The stages neither read nor write the host's script. -/
theorem stageEffect_withHost (hs : List HostAction) (s : State) :
    stageEffect (withHost hs s) = withHost hs (stageEffect s) := by
  unfold stageEffect
  have hd : fullBlockDue (withHost hs s) = fullBlockDue s := rfl
  have hr : remaining (withHost hs s) = remaining s := rfl
  rw [withHost_phase, hd]
  cases s.phase with
  | absorb =>
    cases fullBlockDue s with
    | true =>
      simp only [if_true, fullStage, withHost_msg, withHost_pos]
      cases memRead s.msg s.pos.toNat 64 <;> rfl
    | false =>
      simp only [Bool.false_eq_true, if_false, tailStage, withHost_msg, withHost_pos, hr]
      cases memRead s.msg s.pos.toNat (remaining s) <;> rfl
  | out =>
    simp only [outStage, withHost_cfg]
    cases s.cfg with
    | none => rfl
    | some w => cases w <;> rfl
  | _ => rfl

@[simp] theorem stageEffect_host (s : State) : (stageEffect s).host = s.host := by
  have h := congrArg State.host (stageEffect_withHost s.host s)
  exact h

/-- The stages read no byte of the message memory but those of the one transaction they issue, and write none (R56,
R64). -/
theorem stageEffect_withMessage (s : State) (m' : Memory)
    (hm : ∀ a n, messageRequest s = some (a, n) → ∀ i < n, m'.byteAt (a + i) = s.msg.byteAt (a + i)) :
    stageEffect (withMessage m' s) = withMessage m' (stageEffect s) := by
  unfold stageEffect
  have hd : fullBlockDue (withMessage m' s) = fullBlockDue s := rfl
  have hr : remaining (withMessage m' s) = remaining s := rfl
  rw [withMessage_phase, hd]
  cases hp : s.phase with
  | absorb =>
    cases hdd : fullBlockDue s with
    | true =>
      have hrem : 64 ≤ remaining s := (fullBlockDue_iff s).1 hdd
      have e := memRead_congr (hm s.pos.toNat 64 (by rw [messageRequest, if_pos hp, if_pos hrem]))
      simp only [if_true, fullStage, withMessage_msg, withMessage_pos, e]
      cases memRead s.msg s.pos.toNat 64 <;> rfl
    | false =>
      have e : memRead m' s.pos.toNat (remaining s) = memRead s.msg s.pos.toNat (remaining s) := by
        by_cases h0 : remaining s = 0
        · rw [h0]
          rfl
        · have hrem : ¬ 64 ≤ remaining s := by simpa [fullBlockDue] using hdd
          exact memRead_congr (hm _ _ (by rw [messageRequest, if_pos hp, if_neg hrem, if_neg h0]))
      simp only [Bool.false_eq_true, if_false, tailStage, withMessage_msg, withMessage_pos, hr, e]
      cases memRead s.msg s.pos.toNat (remaining s) <;> rfl
  | out =>
    simp only [outStage, withMessage_cfg]
    cases s.cfg with
    | none => rfl
    | some w => cases w <;> rfl
  | _ => rfl

/-- The step with reset asserted is the reset action (R230). -/
theorem step_reset {s : State} {rest : List HostAction} (h : s.host = .reset :: rest) :
    step s = .next (resetCore (withHost rest s)) := by
  simp [step, nextStep, resetAsserted, hostStep, h]

/-- With nothing on the datapath's select the step is the host's or the controller's. -/
theorem step_eq_hostStep {s : State} (h : s.dp.sel = 0#4) : step s = hostStep s := by
  simp [step, nextStep, h, decodeSelect]

/-- With nothing for the host to do and nothing selected the step is the controller's. -/
theorem step_eq_controllerStep {s : State} (h : s.dp.sel = 0#4) (hh : s.host = []) :
    step s = .next (stageEffect s) := by
  rw [step_eq_hostStep h, hostStep, hh]
  exact controllerStep_eq s

/-! ### Everything a step can do -/

/-- The state after an accepted command word (R87, R191, R192, R203). -/
def commandEffect (w : CmdWord) (s : State) : State :=
  if opField w = 0x01#8 then constructEffect (argField w) s
  else if opField w = 0x02#8 then computeEffect (argField w) s
  else raise .illegalCommand ((opField w).setWidth 64) s

/-- A word presented to a core that does not accept it changes nothing; one that is accepted has its effect (R190). -/
theorem presentCommand_eq (w : CmdWord) (s : State) :
    presentCommand w s = .next (if accepts s = true then commandEffect w s else s) := by
  unfold presentCommand commandEffect decodeCommand
  by_cases ha : accepts s = true
  · by_cases h1 : opField w = 0x01#8
    · simp [ha, h1, exec, execConstruct, offer]
    · by_cases h2 : opField w = 0x02#8
      · simp [ha, h2, exec, execCompute, offer]
      · simp [ha, h1, h2]
  · simp [ha]

/-- A datapath operation run by itself writes its result on the output and, for `E` and `G`, the working registers; nothing
else (R86, R143, R150). -/
theorem exec_selected {sel : BitVec 4} {i : Instr} (h : decodeSelect sel = .ok i) (s : State) :
    ∃ r t k, exec i s = .next { s with dp := { s.dp with result := r }, t := t, k := k } := by
  unfold decodeSelect at h
  split at h <;> cases h <;> exact ⟨_, _, _, rfl⟩

/-- Everything a host's or controller's step can do: it always goes on, and it is the reset action, an accepted command, a
change of the message memory, a move of the script alone, or a stage. -/
theorem hostStep_cases (s : State) :
    (∃ rest, s.host = .reset :: rest ∧ hostStep s = .next (resetCore (withHost rest s))) ∨
    (∃ w rest, (s.host = .command w :: rest ∨ s.host = .hold w :: rest) ∧ accepts s = true ∧
      hostStep s = .next (commandEffect w (withHost rest s))) ∨
    (∃ m rest, hostStep s = .next (withMessage m (withHost rest s))) ∨
    (∃ rest, hostStep s = .next (withHost rest s)) ∨
    (∃ rest, hostStep s = .next (stageEffect (withHost rest s))) := by
  have he (rest : List HostAction) : accepts (withHost rest s) = accepts s := rfl
  have hc : controllerStep s = .next (stageEffect (withHost s.host s)) := controllerStep_eq s
  cases hh : s.host with
  | nil => exact .inr (.inr (.inr (.inr ⟨s.host, by simpa only [hostStep, hh] using hc⟩)))
  | cons a rest =>
    cases a with
    | reset => exact .inl ⟨rest, rfl, by rw [hostStep, hh]⟩
    | command w =>
      cases ha : accepts s with
      | true => exact .inr (.inl ⟨w, rest, .inl rfl, rfl, by rw [hostStep, hh]; simp [presentCommand_eq, he, ha]⟩)
      | false => exact .inr (.inr (.inr (.inl ⟨rest, by rw [hostStep, hh]; simp [presentCommand_eq, he, ha]⟩)))
    | hold w =>
      cases ha : accepts s with
      | true => exact .inr (.inl ⟨w, rest, .inr rfl, rfl, by rw [hostStep, hh]; simp [presentCommand_eq, he, ha]⟩)
      | false =>
        refine .inr (.inr (.inr (.inr ⟨s.host, ?_⟩)))
        simpa only [hostStep, hh, ha, Bool.false_eq_true, if_false] using hc
    | message bs => exact .inr (.inr (.inl ⟨_, rest, by rw [hostStep, hh]⟩))
    | write a b => exact .inr (.inr (.inl ⟨_, rest, by rw [hostStep, hh]⟩))
    | withdraw a => exact .inr (.inr (.inl ⟨_, rest, by rw [hostStep, hh]⟩))
    | pass => exact .inr (.inr (.inr (.inr ⟨rest, by rw [hostStep, hh]; exact controllerStep_eq _⟩)))
    | wait =>
      cases hb : busy s with
      | true =>
        refine .inr (.inr (.inr (.inr ⟨s.host, ?_⟩)))
        simpa only [hostStep, hh, hb, if_true] using hc
      | false => exact .inr (.inr (.inr (.inl ⟨rest, by rw [hostStep, hh]; simp [hb]⟩)))

/-- Everything a step that goes on can do. -/
theorem step_cases {s u : State} (h : step s = .next u) :
    (∃ rest, s.host = .reset :: rest ∧ u = resetCore (withHost rest s)) ∨
    (∃ r t k, u = { s with dp := { s.dp with sel := 0#4, result := r }, t := t, k := k }) ∨
    (∃ w rest, s.dp.sel = 0#4 ∧ (s.host = .command w :: rest ∨ s.host = .hold w :: rest) ∧ accepts s = true ∧
      u = commandEffect w (withHost rest s)) ∨
    (∃ m rest, u = withMessage m (withHost rest s)) ∨
    (∃ rest, u = withHost rest s) ∨
    (∃ rest, s.dp.sel = 0#4 ∧ u = stageEffect (withHost rest s)) := by
  unfold step nextStep at h
  cases hr : resetAsserted s with
  | true =>
    simp only [resetAsserted] at hr
    split at hr
    · rename_i rest hh
      simp only [resetAsserted, hh, if_true, hostStep] at h
      exact .inl ⟨rest, hh, by simpa using h.symm⟩
    · cases hr
  | false =>
    rw [hr] at h
    simp only [Bool.false_eq_true, if_false] at h
    split at h
    · rename_i i hd
      obtain ⟨r, t, k, e⟩ := exec_selected hd (clearSelect s)
      rw [e] at h
      exact .inr (.inl ⟨r, t, k, by simpa [clearSelect] using h.symm⟩)
    · rename_i hd
      have hsel : s.dp.sel = 0#4 := by
        revert hd
        unfold decodeSelect
        split <;> intro hd <;> cases hd
        exact BitVec.eq_of_toNat_eq ‹_›
      obtain ⟨rest, hh, e⟩ | ⟨w, rest, hh, ha, e⟩ | ⟨m, rest, e⟩ | ⟨rest, e⟩ | ⟨rest, e⟩ := hostStep_cases s <;>
        rw [e] at h <;> have hu := by simpa using h.symm
      · exact .inl ⟨rest, hh, hu⟩
      · exact .inr (.inr (.inl ⟨w, rest, hsel, hh, ha, hu⟩))
      · exact .inr (.inr (.inr (.inl ⟨m, rest, hu⟩)))
      · exact .inr (.inr (.inr (.inr (.inl ⟨rest, hu⟩))))
      · exact .inr (.inr (.inr (.inr (.inr ⟨rest, hsel, hu⟩))))
    · cases h

end Sys2Proof.Laws
end

