-- ==== Sys2Proof/Laws/Datapath.lean ====
section
/-! SUPPORT. What each datapath function does, byte by byte or lane by lane, and the working registers of the cipher and the
compression in the spec's own terms (R120 to R124, R141 to R150, R161, R162, R169, R170). -/

namespace Sys2Proof.Laws

open Sys2Proof.Machine

theorem byteOf_xor512 (a b : Vec512) (i : Nat) : byteOf (xor512 a b) i = byteOf a i ^^^ byteOf b i := byteOf_xor a b i

theorem byteOf_sub512 (a : Vec512) {i : Nat} (h : i < 64) : byteOf (sub512 a) i = romSbox (byteOf a i) :=
  byteOf_ofBytes _ i h

theorem byteOf_perm512 (a : Vec512) {j : Nat} (h : j < 64) : byteOf (perm512 a) j = byteOf a (romTau j) :=
  byteOf_ofBytes _ j h

theorem laneOf_lin512 (a : Vec512) {k : Nat} (h : k < 8) : laneOf (lin512 a) k = lin64 (laneOf a k) :=
  laneOf_ofLanes _ k h

/-- The sum as a number (R124). -/
theorem toNat_add512 (a b : Vec512) : (add512 a b).toNat = (a.toNat + b.toNat) % 2 ^ 512 := by
  rw [add512, BitVec.toNat_add]

/-- Bit counts add (R22, R164, R165). -/
theorem add512_vec (a b : Nat) : add512 (vec a) (vec b) = vec (a + b) := by
  rw [add512, vec, vec, vec, ← BitVec.ofNat_add]

/-- `ROM.INC512` is `vec(512)` (R106). -/
theorem romInc512_eq : romInc512 = vec 512 := by
  unfold romInc512
  decide +kernel

/-- `ROM.ZERO512` is `vec(0)` (R107). -/
theorem romZero512_eq : romZero512 = vec 0 := rfl

/-- The two results of `ROUND` (R142). -/
theorem roundStep_eq (t k : Vec512) (r : Fin 12) :
    roundStep (t, k) r = (lps t ^^^ lps (k ^^^ romC r), lps (k ^^^ romC r)) := by
  simp only [roundStep, keyStep, xor512]

/-- The working registers after `G` are those of `E` under its key (R150). -/
theorem compressWork_eq (h n m : Vec512) : compressWork h n m = cipher (lps (h ^^^ n)) m := by
  simp only [compressWork, xor512]

/-- The result of `G` (R150). -/
theorem compress_eq (h n m : Vec512) : compress h n m = (cipher (lps (h ^^^ n)) m).1 ^^^ h ^^^ m := by
  simp only [compress, compressWork, xor512]

theorem byteOf_ingest (b : List Byte) {i : Nat} (h : i < 64) : byteOf (ingest b) i = b.getD (63 - i) 0#8 :=
  byteOf_ofBytes _ i h

theorem byteOf_pad (b : List Byte) {i : Nat} (h : i < 64) :
    byteOf (pad b) i =
      if i = 63 - b.length then 0x01#8 else if 63 - i < b.length then b.getD (63 - i) 0x00#8 else 0x00#8 :=
  byteOf_ofBytes _ i h

theorem getElem_rev512 (h : Vec512) (j : Nat) (hj : j < 64) : (rev512 h)[j] = byteOf h (63 - j) := by
  simp [rev512]

theorem getElem_trunc256 (h : Vec512) (j : Nat) (hj : j < 32) : (trunc256 h)[j] = byteOf h j := by
  simp [trunc256]

/-- Reading what `REV512` gives as `INGEST` reads a block gives the vector back (R161, R169). -/
theorem ingest_rev512 (v : Vec512) : ingest (rev512 v).toList = v := by
  apply eq_of_byteOf
  intro i hi
  rw [byteOf_ingest _ hi, List.getD_eq_getElem?_getD, Vector.getElem?_toList,
    Vector.getElem?_eq_getElem (by omega), Option.getD_some, getElem_rev512, show 63 - (63 - i) = i by omega]

end Sys2Proof.Laws
end

