-- ==== Sys2Proof/Laws/Decode.lean ====
section
/-! SUPPORT. The fields of a command word: a word built from fields has them, and a word is built from its fields (R81). -/

namespace Sys2Proof.Laws

theorem getLsbD_commandWord (op : BitVec 8) (arg : Word64) (i : Nat) :
    (commandWord op arg).getLsbD i = if i < 64 then arg.getLsbD i else op.getLsbD (i - 64) :=
  BitVec.getLsbD_append

@[simp] theorem opField_commandWord (op : BitVec 8) (arg : Word64) : opField (commandWord op arg) = op := by
  apply BitVec.eq_of_getLsbD_eq
  intro i hi
  simp [opField, getLsbD_commandWord, hi]

@[simp] theorem argField_commandWord (op : BitVec 8) (arg : Word64) : argField (commandWord op arg) = arg := by
  apply BitVec.eq_of_getLsbD_eq
  intro i hi
  simp [argField, getLsbD_commandWord, hi]

theorem commandWord_fields (w : CmdWord) : commandWord (opField w) (argField w) = w := by
  apply BitVec.eq_of_getLsbD_eq
  intro i hi
  rw [getLsbD_commandWord]
  by_cases h : i < 64
  · simp [argField, h]
  · simp [opField, h, show i - 64 < 8 by omega, show 64 + (i - 64) = i by omega]

end Sys2Proof.Laws
end

