-- ==== Sys2Proof/Laws/Fetch.lean ====
section
/-! SUPPORT. The state `placeCode` makes runs exactly the operation of the code word in its next step. -/

namespace Sys2Proof.Laws

open Sys2Proof.Machine

/-- The step after `placeCode` is the meaning of the operation on the registers and the memory that `placeCode` left. -/
theorem step_placeCode (s : State) (i : Instr) :
    ∃ t, step (placeCode s (encode i)) = exec i t ∧ registers t = registers (placeCode s (encode i)) ∧
      t.msg = s.msg ∧ t.dp.opA = s.dp.opA ∧ t.dp.opB = s.dp.opB ∧ t.dp.opC = s.dp.opC := by
  have hacc (c : CmdWord) : accepts (withHost [] (placeCode s (.command c))) = true := by
    rw [accepts_iff]
    refine ⟨rfl, ?_⟩
    simp only [placeCode, withHost]
    by_cases hf : fatal s = true
    · simp [hf]
    · have := (not_congr (fatal_iff s)).1 hf
      rcases he : s.errCode with _ | e
      · simp
      · cases e <;> simp_all
  have hfull : fullBlockDue (placeCode s (encode .full)) = true := by
    cases hd : fullBlockDue s with
    | true => simpa [placeCode, encode, hd, clearSelect, fullBlockDue_eq] using (fullBlockDue_iff s).1 hd
    | false => simp [placeCode, encode, hd, clearSelect, fullBlockDue_eq]
  have htail : fullBlockDue (placeCode s (encode .tail)) = false := by
    cases hd : fullBlockDue s with
    | true => simp [placeCode, encode, hd, clearSelect, fullBlockDue_eq]
    | false =>
      have h : ¬ 64 ≤ s.len.toNat - s.pos.toNat := fun h => by simp [(fullBlockDue_iff s).2 h] at hd
      simpa [placeCode, encode, hd, clearSelect, fullBlockDue_eq] using h
  cases i with
  | construct width =>
    refine ⟨withHost [] (placeCode s (encode (.construct width))), ?_, rfl, rfl, rfl, rfl, rfl⟩
    rw [step_eq_hostStep rfl]
    change presentCommand (commandWord 0x01#8 width) (withHost [] (placeCode s (.command _))) = _
    rw [presentCommand, if_pos (hacc _), decodeCommand]
    simp [encode]
  | compute len =>
    refine ⟨withHost [] (placeCode s (encode (.compute len))), ?_, rfl, rfl, rfl, rfl, rfl⟩
    rw [step_eq_hostStep rfl]
    change presentCommand (commandWord 0x02#8 len) (withHost [] (placeCode s (.command _))) = _
    rw [presentCommand, if_pos (hacc _), decodeCommand]
    simp [encode]
  | full =>
    refine ⟨placeCode s (encode .full), ?_, rfl, rfl, rfl, rfl, rfl⟩
    rw [step_eq_hostStep rfl]
    exact controllerStep_of_decode (by rw [hfull]; rfl)
  | tail =>
    refine ⟨placeCode s (encode .tail), ?_, rfl, rfl, rfl, rfl, rfl⟩
    rw [step_eq_hostStep rfl]
    exact controllerStep_of_decode (by rw [htail]; rfl)
  | init => exact ⟨placeCode s (encode .init), rfl, rfl, rfl, rfl, rfl, rfl⟩
  | finN => exact ⟨placeCode s (encode .finN), rfl, rfl, rfl, rfl, rfl, rfl⟩
  | finS => exact ⟨placeCode s (encode .finS), rfl, rfl, rfl, rfl, rfl, rfl⟩
  | out => exact ⟨placeCode s (encode .out), rfl, rfl, rfl, rfl, rfl, rfl⟩
  | x => exact ⟨clearSelect (placeCode s (encode .x)), rfl, rfl, rfl, rfl, rfl, rfl⟩
  | s => exact ⟨clearSelect (placeCode s (encode .s)), rfl, rfl, rfl, rfl, rfl, rfl⟩
  | p => exact ⟨clearSelect (placeCode s (encode .p)), rfl, rfl, rfl, rfl, rfl, rfl⟩
  | l => exact ⟨clearSelect (placeCode s (encode .l)), rfl, rfl, rfl, rfl, rfl, rfl⟩
  | add512 => exact ⟨clearSelect (placeCode s (encode .add512)), rfl, rfl, rfl, rfl, rfl, rfl⟩
  | lps => exact ⟨clearSelect (placeCode s (encode .lps)), rfl, rfl, rfl, rfl, rfl, rfl⟩
  | keystep => exact ⟨clearSelect (placeCode s (encode .keystep)), rfl, rfl, rfl, rfl, rfl, rfl⟩
  | round => exact ⟨clearSelect (placeCode s (encode .round)), rfl, rfl, rfl, rfl, rfl, rfl⟩
  | e => exact ⟨clearSelect (placeCode s (encode .e)), rfl, rfl, rfl, rfl, rfl, rfl⟩
  | g => exact ⟨clearSelect (placeCode s (encode .g)), rfl, rfl, rfl, rfl, rfl, rfl⟩
  | ingest => exact ⟨clearSelect (placeCode s (encode .ingest)), rfl, rfl, rfl, rfl, rfl, rfl⟩
  | pad => exact ⟨clearSelect (placeCode s (encode .pad)), rfl, rfl, rfl, rfl, rfl, rfl⟩
  | rev512 => exact ⟨clearSelect (placeCode s (encode .rev512)), rfl, rfl, rfl, rfl, rfl, rfl⟩
  | trunc256 => exact ⟨clearSelect (placeCode s (encode .trunc256)), rfl, rfl, rfl, rfl, rfl, rfl⟩

end Sys2Proof.Laws
end

