-- ==== Sys2Proof/Laws/PerInstr.lean ====
section
/-! SUPPORT. Facts about every operation, one lemma per constructor of `Instr`. Family `CodeWordWellFormed`: the code word of an
operation is well formed (spec/30_encoding.md R82, R85, R86). -/

namespace Sys2Proof.Laws

/-- The code word of the operation selects an operation. -/
def CodeWordWellFormed.Statement (i : Instr) : Prop := (encode i).wellFormed = true

theorem CodeWordWellFormed.construct (width : Word64) : CodeWordWellFormed.Statement (.construct width) := by
  have h : (commandWord 0x01#8 width).extractLsb' 64 8 = 0x01#8 := opField_commandWord _ _
  simp [CodeWordWellFormed.Statement, encode, CodeWord.wellFormed, h]

theorem CodeWordWellFormed.compute (len : Word64) : CodeWordWellFormed.Statement (.compute len) := by
  have h : (commandWord 0x02#8 len).extractLsb' 64 8 = 0x02#8 := opField_commandWord _ _
  simp [CodeWordWellFormed.Statement, encode, CodeWord.wellFormed, h]

theorem CodeWordWellFormed.init : CodeWordWellFormed.Statement .init := rfl

theorem CodeWordWellFormed.full : CodeWordWellFormed.Statement .full := rfl

theorem CodeWordWellFormed.tail : CodeWordWellFormed.Statement .tail := rfl

theorem CodeWordWellFormed.finN : CodeWordWellFormed.Statement .finN := rfl

theorem CodeWordWellFormed.finS : CodeWordWellFormed.Statement .finS := rfl

theorem CodeWordWellFormed.out : CodeWordWellFormed.Statement .out := rfl

theorem CodeWordWellFormed.x : CodeWordWellFormed.Statement .x := rfl

theorem CodeWordWellFormed.s : CodeWordWellFormed.Statement .s := rfl

theorem CodeWordWellFormed.p : CodeWordWellFormed.Statement .p := rfl

theorem CodeWordWellFormed.l : CodeWordWellFormed.Statement .l := rfl

theorem CodeWordWellFormed.add512 : CodeWordWellFormed.Statement .add512 := rfl

theorem CodeWordWellFormed.lps : CodeWordWellFormed.Statement .lps := rfl

theorem CodeWordWellFormed.keystep : CodeWordWellFormed.Statement .keystep := rfl

theorem CodeWordWellFormed.round : CodeWordWellFormed.Statement .round := rfl

theorem CodeWordWellFormed.e : CodeWordWellFormed.Statement .e := rfl

theorem CodeWordWellFormed.g : CodeWordWellFormed.Statement .g := rfl

theorem CodeWordWellFormed.ingest : CodeWordWellFormed.Statement .ingest := rfl

theorem CodeWordWellFormed.pad : CodeWordWellFormed.Statement .pad := rfl

theorem CodeWordWellFormed.rev512 : CodeWordWellFormed.Statement .rev512 := rfl

theorem CodeWordWellFormed.trunc256 : CodeWordWellFormed.Statement .trunc256 := rfl

end Sys2Proof.Laws
end

