-- ==== Sys2Proof/Laws/Run.lean ====
section
/-! SUPPORT. Runs of several steps: composition, and a run in which it is always the controller's turn. -/

namespace Sys2Proof.Laws

open Sys2Proof.Machine

/-- A run is a run of its first steps and then of the others. -/
theorem run_add {M : Host.Core} (j k : Nat) {s t : M.State} (h : M.run j s = .next t) :
    M.run (j + k) s = M.run k t := by
  induction j generalizing s with
  | zero =>
    cases h
    rw [Nat.zero_add]
  | succ j ih =>
    rw [Nat.succ_add, Host.Core.run]
    rw [Host.Core.run] at h
    cases hs : M.step s with
    | next s' =>
      rw [hs] at h
      exact ih h
    | fault r =>
      rw [hs] at h
      cases h
    | refused r =>
      rw [hs] at h
      cases h

/-- The stages do not touch the datapath's ports. -/
@[simp] theorem stageEffect_dp (s : State) : (stageEffect s).dp = s.dp := by
  unfold stageEffect
  cases s.phase with
  | absorb =>
    simp only []
    split
    · obtain ⟨_, h⟩ | ⟨_, _, _, _, _, _, _, _, _, _, _, _, h⟩ := fullStage_cases s
      · rw [h, raise_dp]
      · rw [h]
    · obtain ⟨_, h⟩ | ⟨_, _, _, _, _, _, _, _, _, _, _, _, h⟩ := tailStage_cases s
      · rw [h, raise_dp]
      · rw [h]
  | finN =>
    obtain ⟨_, _, _, _, h⟩ := finNStage_cases s
    rw [h]
  | finS =>
    obtain ⟨_, _, _, _, h⟩ := finSStage_cases s
    rw [h]
  | out =>
    obtain ⟨d, k, h, _⟩ := outStage_cases s
    rw [h]
  | _ => rfl

/-- After a stage it is still the controller's turn. -/
theorem controllerRuns_stageEffect {s : State} (h : controllerRuns s) : controllerRuns (stageEffect s) :=
  ⟨(stageEffect_host s).trans h.1, by rw [stageEffect_dp]; exact h.2⟩

/-- Where it is the controller's turn, one step is the stage effect. -/
theorem run_succ_controller {s : State} (h : controllerRuns s) (k : Nat) :
    Host.Core.run core (k + 1) s = Host.Core.run core k (stageEffect s) := by
  have e : core.step s = .next (stageEffect s) := step_eq_controllerStep h.2 h.1
  simp only [Host.Core.run, e]

/-- Where it is the controller's turn, a run is the stage effect repeated. -/
theorem run_controller {s : State} (h : controllerRuns s) (k : Nat) :
    Host.Core.run core k s = .next (stageEffect^[k] s) := by
  induction k generalizing s with
  | zero => rfl
  | succ k ih =>
    rw [run_succ_controller h, Function.iterate_succ_apply]
    exact ih (controllerRuns_stageEffect h)

end Sys2Proof.Laws
end

