-- ==== Sys2Proof/Tests/Slice0.lean ====
section
/-! SUPPORT. Tests with expected values from spec/95_test_vectors.md and the rules' own examples, the smoke test of the
well-formedness check, and for every statement with hypotheses a state and operands that meet them. -/

namespace Sys2Proof.Tests

open Sys2Proof Sys2Proof.Machine

-- One theorem at a time: the evaluations of the cipher would otherwise pile up, one thread each.
set_option Elab.async false

/-! ### Well-formedness: each check refuses an ill-formed code word -/

theorem test_wf_opcode_00 : (CodeWord.command 0x000000000000000100#72).wellFormed = false := by decide
theorem test_wf_opcode_07 : (CodeWord.command 0x070000000000000200#72).wellFormed = false := by decide
theorem test_wf_phase_idle : (CodeWord.stage 0b000#3 true).wellFormed = false := by decide
theorem test_wf_phase_reserved :
    (CodeWord.stage 0b110#3 false).wellFormed = false ∧ (CodeWord.stage 0b111#3 true).wellFormed = false := by decide
theorem test_wf_select_none : (CodeWord.datapath 0b0000#4).wellFormed = false := by decide
theorem test_wf_select_reserved : (CodeWord.datapath 0b1111#4).wellFormed = false := by decide
theorem test_wf_accepts :
    (CodeWord.command 0x010000000000000100#72).wellFormed = true ∧ (CodeWord.stage 0b101#3 false).wellFormed = true ∧
      (CodeWord.datapath 0b1110#4).wellFormed = true := by decide

/-! ### Decoding: words written out from the tables of R82, R85, R86 -/

theorem test_decode_construct : decode (.command 0x010000000000000100#72) = .ok (.construct 256#64) := by decide
theorem test_decode_compute : decode (.command 0x02000000000000003f#72) = .ok (.compute 63#64) := by decide
theorem test_decode_construct_whole_operand :
    decode (.command 0x01ffffffffffffffff#72) = .ok (.construct 0xffffffffffffffff#64) := by decide
theorem test_decode_illegal : decode (.command 0xff0000000000000100#72) = .error (.illegalOpcode 0xff#8) := by decide

theorem test_decode_stages :
    decode (.stage 0b001#3 false) = .ok .init ∧ decode (.stage 0b010#3 true) = .ok .full ∧
    decode (.stage 0b010#3 false) = .ok .tail ∧ decode (.stage 0b011#3 false) = .ok .finN ∧
    decode (.stage 0b100#3 false) = .ok .finS ∧ decode (.stage 0b101#3 false) = .ok .out := by decide

theorem test_decode_transform :
    decode (.datapath 0b0001#4) = .ok .x ∧ decode (.datapath 0b0010#4) = .ok .s ∧ decode (.datapath 0b0011#4) = .ok .p ∧
    decode (.datapath 0b0100#4) = .ok .l ∧ decode (.datapath 0b0101#4) = .ok .add512 := by decide

theorem test_decode_rounds :
    decode (.datapath 0b0110#4) = .ok .lps ∧ decode (.datapath 0b0111#4) = .ok .keystep ∧
    decode (.datapath 0b1000#4) = .ok .round ∧ decode (.datapath 0b1001#4) = .ok .e ∧
    decode (.datapath 0b1010#4) = .ok .g := by decide

theorem test_decode_boundary :
    decode (.datapath 0b1011#4) = .ok .ingest ∧ decode (.datapath 0b1100#4) = .ok .pad ∧
    decode (.datapath 0b1101#4) = .ok .rev512 ∧ decode (.datapath 0b1110#4) = .ok .trunc256 := by decide

theorem test_decodeTableWord :
    decodeTableWord 72 0x020000000000000007 = some (.compute 7#64) ∧ decodeTableWord 3 0b100 = some .finS ∧
    decodeTableWord 4 0b0100 = some .l ∧ decodeTableWord 8 0b1010 = some .g ∧ decodeTableWord 8 16 = none := by decide

/-! ### Small states -/

/-- The vector with `v[i] = i`. -/
def idVec : Vec512 := ofBytes fun i => BitVec.ofNat 8 i

/-- A state with the given datapath operands. -/
def dpState (a b c : Vec512) (r : Fin 12) : State :=
  { State.reset with dp := { Datapath.reset with opA := a, opB := b, opC := c, round := r } }

/-- A state with the given byte operand. -/
def byteState (f : Nat → Nat) (count : Fin 64) : State :=
  { State.reset with
    dp := { Datapath.reset with bytes := Vector.ofFn fun i => BitVec.ofNat 8 (f i.val), count := count } }

/-- The result an operation gives on the datapath's output. -/
def resultOf (i : Instr) (s : State) : DpResult :=
  match exec i s with
  | .next t => t.dp.result
  | _ => .none

/-- A field of the next state. -/
def after {α : Type} (f : State → α) (o : Host.Outcome State Fault Refusal) : Option α :=
  match o with
  | .next t => some (f t)
  | _ => none

/-- A message memory with byte `f i` at offset `i`, `i` in 0..n-1. -/
def memOf (f : Nat → Nat) (n : Nat) : Memory := (List.range n).map fun i => (i, BitVec.ofNat 8 (f i))

/-- The message memory with the bytes `00 01 .. 3f` (V-ID64). -/
def id64 : Memory := memOf id 64

/-- The message M1 of spec/95_test_vectors.md section 1.2: the text `0123..`, 63 bytes. -/
def m1 : Memory := memOf (fun i => 0x30 + i % 10) 63

/-- A configured core at rest. -/
def rest512 : State := { State.reset with cfg := some .w512 }

/-- A 512-bit computation over `mem` about to absorb from offset `pos` on. -/
def absorbing (mem : Memory) (len pos : Word64) : State :=
  { State.reset with cfg := some .w512, msg := mem, len := len, pos := pos, phase := .absorb, n := vec (8 * pos.toNat) }

/-- A core in the fatal state after a read fault. -/
def broken : State := { State.reset with errCode := some .invariantViolation }

/-! ### Datapath operations (sections 2.2 to 2.5) -/

theorem test_x : resultOf .x (dpState idVec (BitVec.allOnes 512) 0 0) =
    .vec 0xfffefdfcfbfaf9f8f7f6f5f4f3f2f1f0efeeedecebeae9e8e7e6e5e4e3e2e1e0dfdedddcdbdad9d8d7d6d5d4d3d2d1d0cfcecdcccbcac9c8c7c6c5c4c3c2c1c0#512 := by
  decide +kernel

theorem test_s : resultOf .s (dpState (BitVec.allOnes 512) 0 0 0) = .vec (ofBytes fun _ => 0xb6#8) := by decide +kernel

theorem test_s_id : resultOf .s (dpState idVec 0 0 0) =
    .vec 0xfceedd11cf6e3116fbc4fada23c5044de977f0db932e99ba1736f1bb14cd5fc1f918655ae25cef21811c3c428b018e4f058402aee36a8fa0060bed987fd4d31f#512 := by
  decide +kernel

theorem test_p : resultOf .p (dpState idVec 0 0 0) =
    .vec 0x00081018202830380109111921293139020a121a222a323a030b131b232b333b040c141c242c343c050d151d252d353d060e161e262e363e070f171f272f373f#512 := by
  decide +kernel

theorem test_p_moves_one_byte :
    resultOf .p (dpState (ofBytes fun i => if i = 1 then 0x80#8 else 0#8) 0 0 0) =
      .vec (ofBytes fun i => if i = 8 then 0x80#8 else 0#8) := by decide +kernel

theorem test_l : resultOf .l (dpState idVec 0 0 0) =
    .vec 0x93953387e7118d52d3463b2bdf4d4443132e23c297a9027053fd2b6eaff5cb618efe130d077c8e16ce2d1ba13f2047070e45034877c401344e960be44f98c825#512 := by
  decide +kernel

theorem test_l_two_lanes :
    resultOf .l (dpState (ofBytes fun i => if i = 15 then 0x01#8 else if i = 16 then 0x80#8 else 0#8) 0 0 0) =
      .vec (ofLanes fun k => if k = 1 then 0x641c314b2b8ee083#64 else if k = 2 then 0x8e20faa72ba0b470#64 else 0#64) := by
  decide +kernel

theorem test_add512_wraps : resultOf .add512 (dpState (BitVec.allOnes 512) (vec 1) 0 0) = .vec 0#512 := by decide +kernel

theorem test_add512_counter :
    resultOf .add512 (dpState (vec (512 * 127)) romInc512 0 0) = .vec (ofBytes fun i => if i = 61 then 0x01#8 else 0#8) := by
  decide +kernel

theorem test_lps : resultOf .lps (dpState (romIV .w256) 0 0 0) = .vec (ofLanes fun _ => 0x23c5ee40b07b5f15#64) := by
  decide +kernel

theorem test_keystep_first : resultOf .keystep (dpState 0 0 0 0) =
    .vec 0x72f27059183db001139c1270f36a77e90d492dcec5de138b38990e1fb76acd2df4c41dab015767c60d94a03cac8adaad9ba321149627aab261ee3086cf81d2e5#512 := by
  decide +kernel

theorem test_keystep_twelfth : resultOf .keystep (dpState 0 0 0 11) =
    .vec 0x7336605454f04c2dcfdb3b4cd6edfda46e20ca1d1b3e49f5d0207ee815e82530977764f61d0d678ded258654b5a73908b5d1a9534d8709b561fe378491246f82#512 := by
  decide +kernel

theorem test_round : resultOf .round (dpState 0 0 0 0) =
    .pair 0xc1718c77d6e91575a01fee5e3dbed29dbecad1e00b0ab6ff8b1af23179be68594747e185cf83c2b2be175c12625e7fd92820dd3a58f30fc6d26dcca801557791#512
      0x72f27059183db001139c1270f36a77e90d492dcec5de138b38990e1fb76acd2df4c41dab015767c60d94a03cac8adaad9ba321149627aab261ee3086cf81d2e5#512 := by
  decide +kernel

theorem test_e : after (fun t => (t.t, t.k)) (exec .e (dpState idVec 0 0 0)) =
    some (0xea11f15041978019d580475086a6e5f09b7ea55bca0fa8a2396058009ca8e525e97d07ae68777a5c5a7eb74d62b344751e39ab64baf3ae00444bfd637ea393e3#512,
      0x168a867d30db566d57d530bed9220882370ce279fba4e587a320e6eda2a3ba10173462b6230ec567867c34375e2e46d9a7fb061927a3f5495319bdf9ec941a95#512) := by
  decide +kernel

theorem test_g : resultOf .g (dpState (BitVec.allOnes 512) 0 (BitVec.allOnes 512) 0) =
    .vec 0x671834e9564ef2edf21305b630d133249ab5f354552318c7c5e86eda296c9b9fe29d81f632b810c898c4d64cb002e2375d9847aca2cbdaf0064f52bf0efd291f#512 := by
  decide +kernel

theorem test_ingest : resultOf .ingest (byteState id 0) =
    .vec 0x3f3e3d3c3b3a393837363534333231302f2e2d2c2b2a292827262524232221201f1e1d1c1b1a191817161514131211100f0e0d0c0b0a09080706050403020100#512 := by
  decide +kernel

theorem test_pad_63 : resultOf .pad (byteState (· + 1) 63) =
    .vec 0x013f3e3d3c3b3a393837363534333231302f2e2d2c2b2a292827262524232221201f1e1d1c1b1a191817161514131211100f0e0d0c0b0a090807060504030201#512 := by
  decide +kernel

theorem test_pad_0 : resultOf .pad (byteState (· + 1) 0) = .vec 1#512 := by decide +kernel

theorem test_rev512 : resultOf .rev512 (dpState idVec 0 0 0) = .bytes ((List.range 64).map fun i => BitVec.ofNat 8 (63 - i)) := by
  decide +kernel

theorem test_trunc256 : resultOf .trunc256 (dpState idVec 0 0 0) = .bytes ((List.range 32).map (BitVec.ofNat 8)) := by
  decide +kernel

/-! ### Stages (section 2.6) -/

theorem test_init : after (fun t => (t.h, t.n, t.sigma)) (exec .init { rest512 with cfg := some .w256, phase := .init, h := idVec, n := idVec }) =
    some (ofBytes fun _ => 0x01#8, 0#512, 0#512) := by decide +kernel

theorem test_full : after (fun t => (t.h, t.n, t.pos)) (exec .full (absorbing id64 64 0)) =
    some (0xf44c6364053a110c92a8ca18bb8ac31c16de18f7a885ea6613ff2fed5edb92857b409e6786db709cc56048e9286ee002a5e74e5bb0987b8433eb9052dcb32a08#512,
      vec 512, 64#64) := by
  decide +kernel

theorem test_full_read_fault :
    after (fun t => (t.errCode, t.errInfo, t.phase, t.m)) (exec .full (absorbing (memOf id 63) 64 0)) =
      some (some .invariantViolation, 0#64, .idle, 0#512) := by
  decide +kernel

theorem test_tail : after (fun t => (t.h, t.n, t.phase)) (exec .tail (absorbing m1 63 0)) =
    some (0xfd102cf8812ccb1191ea34af21394f3817a86641445aa9a626488adb33738ebd2754f6908cbbbac5d3ed0f522c50815c954135793fb1f5d905fee4736b3bdae2#512,
      0x1f8#512, .finN) := by
  decide +kernel

theorem test_finN : after (fun t => t.h) (exec .finN { rest512 with
      phase := .finN
      h := 0xae9e6751f6fc67c72a0256e7095357f80b040599a4dad6ca2096c56de2d05e399d04abddb53ce850aae44685231ede380963ba6c8c4900a40368b62b33893cda#512 }) =
    some 0x7af282a0b62b7079de854d6b781d3981f9e6895ff7ce53ff37c2984745abceec57b31f157923a5636d96b227dba156330d25b917600b6d586e218d8a261f4e07#512 := by
  decide +kernel

theorem test_finS : after (fun t => t.h) (exec .finS { rest512 with
      phase := .finS
      sigma := 1#512
      h := 0x7af282a0b62b7079de854d6b781d3981f9e6895ff7ce53ff37c2984745abceec57b31f157923a5636d96b227dba156330d25b917600b6d586e218d8a261f4e07#512 }) =
    some 0x8a1a1c4cbf909f8ecb81cd1b5c713abad26a4cac2a5fda3ce86e352855712f36a7f0be98eb6cf51553b507b73a87e97946aebc29859255049f86aa09a25d948e#512 := by
  decide +kernel

theorem test_out_512 : after (fun t => (t.digest.toList.take 4, t.done)) (exec .out { rest512 with
      phase := .out
      h := 0x8a1a1c4cbf909f8ecb81cd1b5c713abad26a4cac2a5fda3ce86e352855712f36a7f0be98eb6cf51553b507b73a87e97946aebc29859255049f86aa09a25d948e#512 }) =
    some ([0x8e#8, 0x94#8, 0x5d#8, 0xa2#8], true) := by
  decide +kernel

theorem test_out_256 : after (fun t => (t.digest.toList.take 4, dlen t.cfg)) (exec .out { rest512 with
      cfg := some .w256
      phase := .out
      h := 0xbbe19c8d2025d99f943a932a0b365a822aa36a4c479d22cc02c8973e219a533f6c0cb63589fc077568bab1da1913d85c972a1f4f4fba668aa9192d91e7a9aba2#512 }) =
    some ([0xbb#8, 0xe1#8, 0x9c#8, 0x8d#8], 32) := by
  decide +kernel

/-! ### Commands (R191, R192, section 2.8) -/

theorem test_construct_valid :
    after (fun t => (t.cfg, t.errCode)) (step { State.reset with host := [.command 0x010000000000000100#72] }) =
      some (some .w256, none) := by decide +kernel

theorem test_construct_width_384 :
    after (fun t => (t.errCode, t.errInfo, t.cfg)) (step { rest512 with host := [.command 0x010000000000000180#72] }) =
      some (some .config, 0x180#64, none) := by decide +kernel

theorem test_compute_starts :
    after (fun t => (t.phase, t.len, t.done)) (step { rest512 with done := true, host := [.command 0x020000000000000007#72] }) =
      some (.init, 7#64, false) := by decide +kernel

theorem test_compute_unconfigured :
    after (fun t => (t.errCode, t.errInfo, t.phase)) (step { State.reset with host := [.command 0x020000000000000007#72] }) =
      some (some .config, 0#64, .idle) := by decide +kernel

theorem test_illegal_opcode :
    after (fun t => (t.errCode, t.errInfo, t.cfg)) (step { rest512 with host := [.command 0x070000000000000200#72] }) =
      some (some .illegalCommand, 7#64, some .w512) := by decide +kernel

/-! ### The host: memory, script, tables -/

theorem test_write_keeps_order :
    Memory.write [(1, 0xaa#8), (3, 0xbb#8)] 2 0xcc#8 = [(1, 0xaa#8), (2, 0xcc#8), (3, 0xbb#8)] := by decide

theorem test_wf_refuses_disorder : Memory.wf [(3, 0xaa#8), (1, 0xbb#8)] = false := by decide

theorem test_memRead_stops_at_a_gap : memRead [(0, 1#8), (2, 3#8)] 0 3 = none := by decide

theorem test_script_construct :
    parseLine "CONSTRUCT 256 ; width".toList = some [.command 0x010000000000000100#72] := by decide +kernel

theorem test_script_hash512 : parseLine "HASH512 0x3F".toList =
    some [.command 0x010000000000000200#72, .command 0x02000000000000003f#72, .wait] := by decide +kernel

/-- The `MSG` line of program P7, and that a pair split by a blank is no byte. -/
theorem test_script_repeated_bytes :
    parseLine "MSG 5a x 100          ; offsets 0..99".toList = some [.message (List.replicate 100 0x5a#8)] ∧
    parseLine "MSG 61 6263".toList = some [.message [0x61#8, 0x62#8, 0x63#8]] ∧ parseLine "MSG 6 1".toList = none := by
  decide +kernel

theorem test_withFetchWord_runs_compute :
    after (fun t => (t.errCode, t.errInfo)) (step (State.reset.withFetchWord 72 0x020000000000000007)) =
      some (some .config, 0#64) := by decide +kernel

/-! ### Witnesses: states and operands that meet the hypotheses of the statements -/

theorem witness_opcodes :
    (0x01ffffffffffffffff#72 &&& 0xFF0000000000000000#72 = 0x010000000000000000#72) ∧
    (0x020000000000000000#72 &&& 0xFF0000000000000000#72 = 0x020000000000000000#72) := by decide

theorem witness_decode_agree :
    decode (.command 0x010000000000000000#72) = .ok (.construct 0#64) ∧ decode (.stage 0b010#3 true) = .ok .full ∧
    decode (.datapath 0b1110#4) = .ok .trunc256 := by decide

theorem witness_step_datapath :
    resetAsserted { State.reset with dp := { Datapath.reset with sel := 1#4 } } = false ∧
    decode (.datapath (1#4)) = .ok .x := by decide

theorem witness_step_command :
    State.reset.dp.sel = 0#4 ∧ accepts { State.reset with host := [.command 0x020000000000000000#72] } = true ∧
    accepts { State.reset with host := [.hold 0x020000000000000000#72] } = true ∧
    decode (.command 0x020000000000000000#72) = .ok (.compute 0#64) := by decide

theorem witness_step_stage :
    let s := absorbing id64 64 0
    s.dp.sel = 0#4 ∧ s.host = [] ∧
      decode (.stage (phaseCode s.phase) (decide (64 ≤ s.len.toNat - s.pos.toNat))) = .ok .full ∧
      decode (.stage (phaseCode Phase.finN) (decide (64 ≤ s.len.toNat - s.pos.toNat))) = .ok .finN := by decide +kernel

theorem witness_step_idle :
    rest512.dp.sel = 0#4 ∧ rest512.phase = .idle ∧ rest512.host = [] ∧
    ({ rest512 with host := [.pass, .wait] } : State).host = .pass :: [.wait] ∧
    ({ rest512 with host := [.wait] } : State).host = .wait :: [] := by decide

/-- `ABSORB` at the boundary: 64 and 63 bytes left. -/
theorem witness_absorb_boundary :
    (absorbing id64 64 0).pos.toNat ≤ (absorbing id64 64 0).len.toNat ∧ 64 ≤ (64#64).toNat - (0#64).toNat ∧
    (absorbing m1 63 0).pos.toNat ≤ (absorbing m1 63 0).len.toNat ∧ (63#64).toNat - (0#64).toNat < 64 := by decide +kernel

theorem witness_channel :
    accepts { absorbing id64 64 0 with host := [.command 0#72] } = false ∧ accepts { broken with host := [.hold 0#72] } = false ∧
    accepts { State.reset with errCode := some .config, host := [.command 0x030000000000000000#72] } = true ∧
    (0x010000000000000000#72).extractLsb' 64 8 = 0x01#8 ∧ (0x020000000000000000#72).extractLsb' 64 8 = 0x02#8 ∧
    (0x030000000000000000#72).extractLsb' 64 8 ≠ 0x01#8 ∧ (0x030000000000000000#72).extractLsb' 64 8 ≠ 0x02#8 := by
  decide +kernel

theorem witness_construct :
    State.reset.phase = .idle ∧ State.reset.errCode = none ∧ (257#64 : Word64) ≠ 256#64 ∧ (257#64 : Word64) ≠ 512#64 ∧
    ({ State.reset with errCode := some .config } : State).errCode = some .config := by decide

theorem witness_compute : rest512.phase = .idle ∧ rest512.errCode = none ∧ rest512.cfg ≠ none ∧ State.reset.cfg = none := by
  decide

theorem witness_unaccepted :
    (absorbing id64 64 0).phase ≠ .idle ∧ broken.errCode = some .invariantViolation ∧
    ({ broken with errCode := some .illegalCommand } : State).errCode = some .illegalCommand := by decide +kernel

theorem witness_illegal_opcode :
    let s : State := { rest512 with host := [.command 0x000000000000000000#72] }
    s.dp.sel = 0#4 ∧ s.host = [.command 0x000000000000000000#72] ∧ s.phase = .idle ∧ s.errCode = none ∧
    (0x000000000000000000#72).extractLsb' 64 8 ≠ 0x01#8 ∧ (0x000000000000000000#72).extractLsb' 64 8 ≠ 0x02#8 := by decide

/-- `FULL` with only its last byte missing; `TAIL` of 63 bytes with only its last byte missing. -/
theorem witness_read_fault :
    (absorbing (memOf id 63) 64 0).phase = .absorb ∧ 64 ≤ (64#64).toNat - (0#64).toNat ∧ 63 < 64 ∧
    (memOf id 63).byteAt (0 + 63) = none ∧ (63#64).toNat - (0#64).toNat < 64 ∧ 62 < (63#64).toNat - (0#64).toNat ∧
    (memOf id 62).byteAt (0 + 62) = none := by decide +kernel

theorem witness_fatal :
    let s : State := { broken with host := [.command 0x010000000000000100#72, .wait, .pass, .write 0#64 1#8] }
    fatal s = true ∧ s.phase = .idle ∧ s.dp.sel = 0#4 ∧ ∀ a ∈ s.host, a ≠ HostAction.reset := by decide

theorem witness_reset : ({ broken with host := [.reset, .wait] } : State).host = .reset :: [.wait] := rfl

theorem witness_linear_lanes :
    laneOf 0#512 0 = laneOf 1#512 0 ∧ laneOf 0#512 7 ≠ laneOf 1#512 7 := by decide +kernel

/-- The round keys `K_1, K_2, ..` from index 1 on. -/
def keySequence (k1 : Vec512) : Nat → Vec512
  | 0 => k1
  | 1 => k1
  | r + 2 => if h : r < 12 then lps (keySequence k1 (r + 1) ^^^ romC ⟨r, h⟩) else 0#512

/-- The cipher states after round 0, 1, .. -/
def textSequence (k1 m : Vec512) : Nat → Vec512
  | 0 => m ^^^ k1
  | r + 1 => lps (textSequence k1 m r) ^^^ keySequence k1 (r + 2)

/-- Sequences as the statement about `E` asks for exist for every key and block. -/
theorem witness_cipher (k1 m : Vec512) :
    keySequence k1 1 = k1 ∧ textSequence k1 m 0 = m ^^^ k1 ∧
    ∀ r : Fin 12, keySequence k1 (r.val + 2) = lps (keySequence k1 (r.val + 1) ^^^ romC r) ∧
      textSequence k1 m (r.val + 1) = lps (textSequence k1 m r.val) ^^^ keySequence k1 (r.val + 2) := by
  refine ⟨by rw [keySequence], by rw [textSequence], fun r => ⟨?_, by rw [textSequence]⟩⟩
  rw [keySequence, dif_pos r.isLt]

theorem witness_round : ∃ kn : Vec512, kn = lps (idVec ^^^ romC 11) := ⟨_, rfl⟩

theorem witness_compression : ∃ k1 t k : Vec512, k1 = lps (idVec ^^^ 0#512) ∧ (t, k) = cipher k1 idVec :=
  ⟨_, _, _, rfl, rfl⟩

theorem witness_init :
    let s : State := { rest512 with phase := .init }
    (s.phase = .init ∧ s.cfg = some .w512) ∧ ({ s with cfg := some .w256 } : State).cfg = some .w256 := by decide

theorem witness_full :
    let s := absorbing id64 64 0
    s.phase = .absorb ∧ 64 ≤ s.len.toNat - s.pos.toNat ∧
      ∀ i < 64, s.msg.byteAt (s.pos.toNat + i) = some (BitVec.ofNat 8 i) := by decide +kernel

/-- `TAIL` with nothing left (after a full block) and with 63 bytes left. -/
theorem witness_tail :
    (absorbing id64 64 64).phase = .absorb ∧ (64#64).toNat ≤ (64#64).toNat ∧ 0 = (64#64).toNat - (64#64).toNat ∧
    (absorbing m1 63 0).phase = .absorb ∧ 63 = (63#64).toNat - (0#64).toNat ∧ 63 < 64 ∧
    ∀ i < 63, m1.byteAt (0 + i) = some (BitVec.ofNat 8 (0x30 + i % 10)) := by decide +kernel

theorem witness_finalization :
    ({ rest512 with phase := .finN } : State).phase = .finN ∧ ({ rest512 with phase := .finS } : State).phase = .finS := by
  decide

theorem witness_out :
    let s : State := { rest512 with phase := .out }
    (s.phase = .out ∧ s.cfg = some .w512) ∧ ({ s with cfg := some .w256 } : State).cfg = some .w256 := by decide

/-- Stages out of their phase; `FULL` with 63 bytes left and `TAIL` with 64. -/
theorem witness_out_of_phase :
    rest512.phase ≠ .init ∧ rest512.phase ≠ .absorb ∧ rest512.phase ≠ .finN ∧ rest512.phase ≠ .finS ∧ rest512.phase ≠ .out ∧
    (63#64).toNat - (0#64).toNat < 64 ∧ 64 ≤ (64#64).toNat - (0#64).toNat := by decide

theorem witness_reserved_select :
    let s : State := { rest512 with dp := { Datapath.reset with sel := 0b1111#4 } }
    rest512.dp.sel ≠ 0b1111#4 ∧ resetAsserted { s with host := [.reset] } = true ∧
      s.dp.sel = 0b1111#4 ∧ resetAsserted s = false := by decide

theorem witness_frame : ∃ t, exec .x rest512 = .next t := ⟨_, rfl⟩

/-- A state inside a computation that meets the invariant: 64 bytes absorbed, `left` more to come. -/
theorem witness_inv_absorbing (len : Word64) (h : 64 ≤ len.toNat) : Inv (absorbing id64 len 64) := by
  constructor <;> simp [absorbing, State.reset, h]
  exact (by decide +kernel : id64.wf = true)

theorem witness_requests :
    messageRequest (absorbing id64 65 64) = some (64, 1) ∧ messageRequest (absorbing id64 127 64) = some (64, 63) ∧
    messageRequest (absorbing id64 128 64) = some (64, 64) ∧ messageRequest (absorbing id64 64 64) = none := by
  decide +kernel

/-- Two memories that agree on the transaction and differ elsewhere. -/
theorem witness_transaction :
    let s := absorbing id64 64 0
    s.host = [] ∧ s.dp.sel = 0#4 ∧ messageRequest s = some (0, 64) ∧ memOf id 65 ≠ s.msg ∧
      ∀ i < 64, (memOf id 65).byteAt (0 + i) = s.msg.byteAt (0 + i) := by decide +kernel

theorem witness_host_writes :
    let s : State := { rest512 with msg := [(5, 1#8)], host := [.write 0xffffffffffffffff#64 7#8] }
    s.dp.sel = 0#4 ∧ s.msg.wf = true ∧ s.host = .write 0xffffffffffffffff#64 7#8 :: [] ∧
      ({ s with host := [.withdraw 5#64] } : State).host = .withdraw 5#64 :: [] ∧ ([] : List Byte).length ≤ 2 ^ 64 ∧
      ({ s with host := [.message [1#8]] } : State).host = .message [1#8] :: [] := by decide +kernel

theorem witness_digest :
    let s : State := { rest512 with done := true }
    (s.done = true ∧ s.cfg = some .w512) ∧ ({ s with cfg := some .w256 } : State).cfg = some .w256 := by decide

/-- A finished core meets the invariant; it goes on without a host, and a command or a reset clears `DONE`. -/
theorem witness_digest_step (hs : List HostAction) :
    Inv { rest512 with done := true, host := hs } ∧ ({ rest512 with done := true, host := hs } : State).done = true ∧
    (∃ t, step { rest512 with done := true } = .next t ∧ t.done = true) ∧
    (∃ t, step { rest512 with done := true, host := [.command 0x020000000000000000#72] } = .next t ∧ t.done = false) ∧
    ∃ t, step { rest512 with done := true, host := [.reset] } = .next t ∧ t.done = false := by
  refine ⟨?_, rfl, ⟨_, rfl, rfl⟩, ⟨_, rfl, rfl⟩, _, rfl, rfl⟩
  constructor <;> simp [rest512, State.reset]
  rfl

theorem witness_vec_bound : 0 < 2 ^ 512 ∧ 2 ^ 512 - 1 < 2 ^ 512 := by decide +kernel

theorem witness_inv_step : Inv State.reset ∧ step State.reset = .next State.reset := by
  refine ⟨?_, rfl⟩
  constructor <;> simp [State.reset]
  rfl

/-- A step that changes `PHASE` and one that enters the fatal state. -/
theorem witness_phase_change :
    (∃ t, step { rest512 with phase := .finN } = .next t ∧ t.phase ≠ .finN) ∧
    (∃ t, step { rest512 with host := [.command 0#72] } = .next t ∧ fatal t = true) ∧
    fatal { rest512 with host := [.command 0#72] } = false := by
  exact ⟨⟨_, rfl, by decide⟩, ⟨_, rfl, by decide⟩, by decide⟩

/-- A step from `ABSORB` that enters the fatal state: the last byte of the block is missing. -/
theorem witness_read_fault_step :
    let s := absorbing (memOf id 63) 64 0
    after fatal (step s) = some true ∧ fatal s = false ∧ messageRequest s = some (0, 64) ∧ s.msg.byteAt (0 + 63) = none := by
  decide +kernel

theorem witness_ends : Inv (absorbing id64 64 64) ∧ (absorbing id64 64 64).phase ≠ .idle ∧ controllerRuns (absorbing id64 64 64) :=
  ⟨witness_inv_absorbing 64 (by decide), by decide +kernel, by decide +kernel, by decide +kernel⟩

/-- The empty message, and a message of one full block. -/
theorem witness_computation :
    let script (len : Word64) : List HostAction :=
      [.command (commandWord 0x01#8 512#64), .command (commandWord 0x02#8 len)]
    let s : State := { State.reset with msg := id64, host := script 64#64 }
    accepts s = true ∧ s.dp.sel = 0#4 ∧ s.host = script 64#64 ∧ (64#64).toNat = ((List.range 64).map (BitVec.ofNat 8)).length ∧
      holdsMessage s.msg ((List.range 64).map (BitVec.ofNat 8)) ∧ holdsMessage [] [] := by
  refine ⟨by decide +kernel, by decide +kernel, by decide +kernel, by decide +kernel, ?_, fun i => i.elim0⟩
  change ∀ i : Fin ((List.range 64).map (BitVec.ofNat 8)).length, id64.byteAt i.val = some _
  decide +kernel

/-- Two computations of the same message with different pasts. -/
theorem witness_past :
    let s₁ : State := { rest512 with phase := .init, len := 1#64, msg := [(0, 7#8)] }
    let s₂ : State := { s₁ with h := idVec, sigma := idVec, pos := 9#64, msg := [(0, 7#8), (1, 8#8)] }
    s₁.phase = .init ∧ s₂.phase = .init ∧ s₁.cfg ≠ none ∧ s₁.cfg = s₂.cfg ∧ s₁.errCode = none ∧ s₂.errCode = none ∧
    s₁.done = false ∧ s₂.done = false ∧ s₁.len = s₂.len ∧ (∀ a < s₁.len.toNat, s₁.msg.byteAt a = s₂.msg.byteAt a) ∧
    (s₁.host = [] ∧ s₁.dp.sel = 0#4) ∧ (s₂.host = [] ∧ s₂.dp.sel = 0#4) := by decide +kernel

theorem witness_full_operations :
    let s := absorbing id64 64 0
    memRead s.msg s.pos.toNat 64 = some (Vector.ofFn fun i : Fin 64 => BitVec.ofNat 8 i.val).toList ∧
      ∃ t, exec .full s = .next t := by
  have due : (decide ((absorbing id64 64 0).phase = .absorb) && fullBlockDue (absorbing id64 64 0)) = true := by decide +kernel
  exact ⟨by decide +kernel, fullStage (absorbing id64 64 0), Laws.whenDue_eq_next.2 ⟨due, rfl⟩⟩

theorem witness_cores : (0 : Nat) ≠ 1 ∧ stepCore 0 [State.reset, rest512] = .next [State.reset, rest512] := by
  exact ⟨by decide, rfl⟩

end Sys2Proof.Tests
end

section
/-! PROOFS. The correspondence of vectors and numbers (spec/00_scope.md R6). -/

namespace Sys2Proof.Proofs

open Sys2Proof.Machine Sys2Proof.Laws

/-- Joining one base-`b` digit to the number above it. -/
theorem div_mul_pow_succ_add_digit (v b k : Nat) :
    v / b ^ (k + 1) * b ^ (k + 1) + v / b ^ k % b * b ^ k = v / b ^ k * b ^ k := by
  rw [Nat.pow_succ, ← Nat.div_div_eq_div_mul, Nat.mul_comm (b ^ k) b, ← Nat.mul_assoc, ← Nat.add_mul,
    Nat.div_add_mod']

/-- The weighted sum of the first `n` bytes is `int(v)` with the bytes after them cleared: the invariant of R6's sum. -/
theorem foldl_weighted_bytes (v : Vec512) (n : Nat) (h : n ≤ 64) :
    (List.range n).foldl (fun acc i => acc + (byteOf v i).toNat * 256 ^ (63 - i)) 0 =
      v.toNat / 256 ^ (64 - n) * 256 ^ (64 - n) := by
  induction n with
  | zero =>
    have above : v.toNat / 256 ^ 64 = 0 := Nat.div_eq_of_lt (v.isLt.trans_eq (Nat.pow_mul 2 8 64))
    rw [List.range_zero, List.foldl_nil, Nat.sub_zero, above, Nat.zero_mul]
  | succ n ih =>
    have left : 64 - n = 63 - n + 1 := by omega
    have left' : 64 - (n + 1) = 63 - n := by omega
    rw [List.range_succ, List.foldl_append, ih (by omega), List.foldl_cons, List.foldl_nil, toNat_byteOf, left, left',
      div_mul_pow_succ_add_digit]

/-- `int(v)` is the weighted sum of all 64 bytes (R6). -/
theorem toNat_eq_weighted_bytes (v : Vec512) :
    v.toNat = (List.range 64).foldl (fun acc i => acc + (byteOf v i).toNat * 256 ^ (63 - i)) 0 := by
  rw [foldl_weighted_bytes v 64 le_rfl, Nat.sub_self, Nat.pow_zero, Nat.div_one, Nat.mul_one]

/-- `int(vec(n)) = n` below `2^512` (R6). -/
theorem toNat_vec {n : Nat} (h : n < 2 ^ 512) : (vec n).toNat = n := by
  rw [vec, BitVec.toNat_ofNat, Nat.mod_eq_of_lt h]

/-- `vec(int(v)) = v` (R6). -/
theorem vec_toNat (v : Vec512) : vec v.toNat = v := BitVec.eq_of_toNat_eq (toNat_vec v.isLt)

/-- Settles O44: the byte sum by adding one byte at a time, and `vec` inverse to `int` on both sides. -/
theorem vectorNumberCorrespondence : Obligations.VectorNumberCorrespondence :=
  ⟨toNat_eq_weighted_bytes, vec_toNat, fun _ => toNat_vec⟩

end Sys2Proof.Proofs
end

section
/-! PROOFS. The invariant every step keeps (spec/10_state.md R22, R30, R32; spec/60_exceptions.md R202, R203, R209), one lemma
per kind of step. -/

namespace Sys2Proof.Proofs

open Sys2Proof.Machine Sys2Proof.Laws

/-! ### Commands and the message memory over a step -/

/-- The stages write no byte of the message memory (R60). -/
@[simp] theorem stageEffect_msg (s : State) : (stageEffect s).msg = s.msg := by
  have h := congrArg State.msg (stageEffect_withMessage s s.msg fun _ _ _ _ _ => rfl)
  exact h

/-- Everything an accepted command word can do: a configuration error, a new width, the start of a computation, or the
error of an illegal opcode (R191, R192, R203). -/
theorem commandEffect_cases (w : CmdWord) (s : State) :
    (∃ info, (opField w = 0x01#8 ∨ opField w = 0x02#8) ∧ commandEffect w s = raise .config info s) ∨
    (∃ c, opField w = 0x01#8 ∧ commandEffect w s =
      { s with cfg := some c, done := false, errCode := clearConfigError s.errCode }) ∨
    (opField w = 0x02#8 ∧ s.cfg ≠ none ∧ commandEffect w s =
      { s with len := argField w, done := false, phase := .init }) ∨
    (opField w ≠ 0x01#8 ∧ opField w ≠ 0x02#8 ∧
      commandEffect w s = raise .illegalCommand ((opField w).setWidth 64) s) := by
  by_cases h1 : opField w = 0x01#8
  · rw [commandEffect, if_pos h1]
    obtain ⟨-, -, e⟩ | ⟨c, -, e⟩ := constructEffect_cases (argField w) s
    · exact .inl ⟨_, .inl h1, e⟩
    · exact .inr (.inl ⟨c, h1, e⟩)
  · by_cases h2 : opField w = 0x02#8
    · rw [commandEffect, if_neg h1, if_pos h2]
      obtain ⟨-, e⟩ | ⟨hc, e⟩ := computeEffect_cases (argField w) s
      · exact .inl ⟨_, .inr h2, e⟩
      · exact .inr (.inr (.inl ⟨h2, hc, e⟩))
    · rw [commandEffect, if_neg h1, if_neg h2]
      exact .inr (.inr (.inr ⟨h1, h2, rfl⟩))

/-- The commands write no byte of the message memory (R60). -/
@[simp] theorem commandEffect_msg (w : CmdWord) (s : State) : (commandEffect w s).msg = s.msg := by
  obtain ⟨_, -, e⟩ | ⟨_, -, e⟩ | ⟨-, -, e⟩ | ⟨-, -, e⟩ := commandEffect_cases w s <;> simp [e]

/-- A step is the host's or the controller's, or a selected datapath operation, which leaves the message memory alone. -/
theorem hostStep_or_msg_eq {s u : State} (h : step s = .next u) : hostStep s = .next u ∨ u.msg = s.msg := by
  unfold step nextStep at h
  split at h
  · exact .inl h
  · split at h
    · rename_i hd
      obtain ⟨r, t, k, e⟩ := exec_selected hd (clearSelect s)
      cases e.symm.trans h
      exact .inr rfl
    · exact .inl h
    · cases h

/-- A presented command word leaves the message memory alone, accepted or not (R60, R190). -/
theorem msg_presentCommand {w : CmdWord} {s u : State} (h : presentCommand w s = .next u) : u.msg = s.msg := by
  rw [presentCommand_eq] at h
  cases h
  split <;> simp

/-- The controller's step leaves the message memory alone (R60). -/
theorem msg_controllerStep {s u : State} (h : controllerStep s = .next u) : u.msg = s.msg := by
  cases (controllerStep_eq s).symm.trans h
  exact stageEffect_msg s

/-- The host's or controller's step keeps the canonical form of `MSG`: of the host's actions only a placement, a write and a
withdrawal change the memory (R52, R60). -/
theorem wf_msg_hostStep {s u : State} (h : hostStep s = .next u) (hw : s.msg.wf = true) : u.msg.wf = true := by
  unfold hostStep at h
  split at h
  · exact msg_controllerStep h ▸ hw
  · cases h; exact hw
  · exact msg_presentCommand h ▸ hw
  · split at h
    · exact msg_presentCommand h ▸ hw
    · exact msg_controllerStep h ▸ hw
  · cases h; exact wf_writeList _ _ _ hw
  · cases h; exact wf_write _ _ _ hw
  · cases h; exact wf_erase _ _ hw
  · exact msg_controllerStep h ▸ hw
  · split at h
    · exact msg_controllerStep h ▸ hw
    · cases h; exact hw

/-- Every step keeps the canonical form of `MSG`. -/
theorem wf_msg_step {s u : State} (h : step s = .next u) (hw : s.msg.wf = true) : u.msg.wf = true := by
  obtain h' | e := hostStep_or_msg_eq h
  · exact wf_msg_hostStep h' hw
  · exact e ▸ hw

/-! ### The invariant -/

/-- The invariant holds in a state at rest without error and without a digest. -/
theorem inv_of_idle_clear {s : State} (hm : s.msg.wf = true) (hp : s.phase = .idle) (hd : s.done = false)
    (he : s.errCode = none) : Inv s := by
  constructor <;> simp [hm, hp, hd, he]

/-- Error entry makes a state that meets the invariant, where `ERR_INFO` is what R202 and R203 say (R206). -/
theorem inv_raise {e : CoreError} {info : Word64} {s : State} (hm : s.msg.wf = true)
    (hv : e = .invariantViolation → info = s.pos)
    (hi : e = .illegalCommand → info.toNat < 256 ∧ info ≠ 1#64 ∧ info ≠ 2#64) : Inv (raise e info s) := by
  constructor <;> simp only [raise_msg, raise_errCode, raise_errInfo, raise_cfg, raise_phase, raise_done, raise_pos,
    Option.some.injEq, reduceCtorEq, ne_eq, not_true, or_self, false_implies]
  · exact hm
  · exact fun h => if_pos h
  · exact hv
  · exact hi

/-- The invariant says nothing of the host's script. -/
theorem inv_withHost {s : State} (h : Inv s) (rest : List HostAction) : Inv (withHost rest s) := { h with }

/-- The invariant says nothing of the datapath's ports and the working registers. -/
theorem inv_datapath {s : State} (h : Inv s) (dp : Datapath) (t k : Vec512) :
    Inv { s with dp := dp, t := t, k := k } := { h with }

/-- Of the message memory the invariant says only that it is canonical. -/
theorem inv_withMessage {s : State} (h : Inv s) {m : Memory} (hm : m.wf = true) : Inv (withMessage m s) :=
  { h with memory := hm }

/-- A computation waiting for `INIT` meets the invariant. -/
theorem inv_init {s : State} (hm : s.msg.wf = true) (hp : s.phase = .init) (hc : s.cfg ≠ none) (hd : s.done = false)
    (he : s.errCode = none) : Inv s := by
  constructor <;> simp [hm, hp, hc, hd, he]

/-- The zero-extension of an opcode byte other than 0x01 and 0x02 is what R203 lets `ERR_INFO` hold. -/
theorem illegal_info {op : BitVec 8} (h1 : op ≠ 0x01#8) (h2 : op ≠ 0x02#8) :
    (op.setWidth 64).toNat < 256 ∧ op.setWidth 64 ≠ 1#64 ∧ op.setWidth 64 ≠ 2#64 := by
  bv_omega

/-- A recorded configuration error is the only error an accepting core has, and `CONSTRUCT` clears it (R191, R209). -/
theorem clearConfigError_of_accepts {s : State} (ha : accepts s = true) : clearConfigError s.errCode = none := by
  obtain ⟨-, he | he⟩ := (accepts_iff s).1 ha <;> rw [he] <;> rfl

/-- An accepted command keeps the invariant (R191, R192, R203, R209). -/
theorem inv_commandEffect {s : State} (h : Inv s) (ha : accepts s = true) (w : CmdWord) : Inv (commandEffect w s) := by
  obtain ⟨hp, he⟩ := (accepts_iff s).1 ha
  obtain ⟨_, -, e⟩ | ⟨_, -, e⟩ | ⟨-, hc, e⟩ | ⟨h1, h2, e⟩ := commandEffect_cases w s <;> rw [e]
  · exact inv_raise h.memory nofun nofun
  · exact inv_of_idle_clear h.memory hp rfl (clearConfigError_of_accepts ha)
  · have noError : s.errCode = none := he.resolve_right fun hcfg => hc (h.configError hcfg)
    exact inv_init h.memory rfl hc rfl noError
  · exact inv_raise h.memory nofun fun _ => illegal_info h1 h2

/-- A configured core without error and digest meets the invariant where its position and bit count do. -/
theorem inv_running {s : State} (hm : s.msg.wf = true)
    (hr : s.cfg ≠ none ∧ s.errCode = none ∧ s.done = false)
    (ha : s.phase = .absorb → s.pos.toNat ≤ s.len.toNat ∧ s.pos.toNat % 64 = 0 ∧ s.n = vec (8 * s.pos.toNat))
    (hf : s.phase = .finN ∨ s.phase = .finS ∨ s.phase = .out → s.pos = s.len ∧ s.n = vec (8 * s.len.toNat)) :
    Inv s := by
  obtain ⟨hc, he, hd⟩ := hr
  exact ⟨hm, by simp [he], fun _ => ⟨hc, he, hd⟩, by simp [hd], ha, hf, by simp [he], by simp [he]⟩

/-- `FULL` keeps the invariant: 64 bytes and 512 bits further, or error entry at `POS` (R164, R202). -/
theorem inv_fullStage {s : State} (h : Inv s) (hp : s.phase = .absorb) (hd : fullBlockDue s = true) :
    Inv (fullStage s) := by
  obtain ⟨-, e⟩ | ⟨_, _, _, n, _, _, -, -, -, -, hn, -, e⟩ := fullStage_cases s <;> rw [e]
  · exact inv_raise h.memory (fun _ => rfl) nofun
  · obtain ⟨-, hmod, hbits⟩ := h.absorbing hp
    have hrem := (fullBlockDue_iff s).1 hd
    have hpos : (s.pos + 64#64).toNat = s.pos.toNat + 64 := by bv_omega
    refine inv_running h.memory (h.running (by simp [hp])) (fun _ => ?_) nofun
    simp only [hpos]
    refine ⟨by omega, by omega, ?_⟩
    rw [hn, hbits, romInc512_eq, add512_vec, Nat.mul_add]

/-- `TAIL` keeps the invariant: `POS` is at `LEN`, or error entry at `POS` (R165, R202). -/
theorem inv_tailStage {s : State} (h : Inv s) (hp : s.phase = .absorb) : Inv (tailStage s) := by
  obtain ⟨-, e⟩ | ⟨_, _, _, n, _, _, -, -, -, -, hn, -, e⟩ := tailStage_cases s <;> rw [e]
  · exact inv_raise h.memory (fun _ => rfl) nofun
  · obtain ⟨hle, -, hbits⟩ := h.absorbing hp
    have hsum : s.pos.toNat + remaining s = s.len.toNat := Nat.add_sub_cancel' hle
    have hpos : s.pos + BitVec.ofNat 64 (remaining s) = s.len := by
      apply BitVec.eq_of_toNat_eq
      rw [BitVec.toNat_add, BitVec.toNat_ofNat, Nat.add_mod_mod, hsum, Nat.mod_eq_of_lt s.len.isLt]
    refine inv_running h.memory (h.running (by simp [hp])) nofun fun _ => ⟨hpos, ?_⟩
    rw [hn, hbits, add512_vec, ← Nat.mul_add, hsum]

/-- `INIT` keeps the invariant: nothing is absorbed yet (R160). -/
theorem inv_initStage {s : State} (h : Inv s) (hp : s.phase = .init) : Inv (initStage s) := by
  refine inv_running h.memory (h.running (by simp [hp])) (fun _ => ?_) nofun
  exact ⟨Nat.zero_le _, rfl, romZero512_eq⟩

/-- `OUT` keeps the invariant: the core comes to rest, configured and without error (R168). -/
theorem inv_outStage {s : State} (h : Inv s) (hp : s.phase = .out) : Inv (outStage s) := by
  obtain ⟨hc, he, -⟩ := h.running (by simp [hp])
  obtain ⟨d, k, e, -⟩ := outStage_cases s
  rw [e]
  constructor <;> simp [h.memory, hc, he]

/-- Every stage keeps the invariant (R172). -/
theorem inv_stageEffect {s : State} (h : Inv s) : Inv (stageEffect s) := by
  unfold stageEffect
  cases hp : s.phase with
  | idle => exact h
  | init => exact inv_initStage h hp
  | absorb =>
    cases hd : fullBlockDue s with
    | true => exact inv_fullStage h hp hd
    | false => exact inv_tailStage h hp
  | finN =>
    obtain ⟨_, _, -, -, e⟩ := finNStage_cases s
    rw [e]
    exact inv_running h.memory (h.running (by simp [hp])) nofun fun _ => h.finalizing (by simp [hp])
  | finS =>
    obtain ⟨_, _, -, -, e⟩ := finSStage_cases s
    rw [e]
    exact inv_running h.memory (h.running (by simp [hp])) nofun fun _ => h.finalizing (by simp [hp])
  | out => exact inv_outStage h hp

/-- Settles O47, by what a step can do: reset, a datapath operation, an accepted command, a change of the memory, a move of
the script, or a stage. -/
theorem invariantKeptByEveryStep : Obligations.InvariantKeptByEveryStep := by
  intro s u h hstep
  have hm := wf_msg_step hstep h.memory
  obtain ⟨rest, -, rfl⟩ | ⟨r, t, k, rfl⟩ | ⟨w, rest, -, -, ha, rfl⟩ | ⟨m, rest, rfl⟩ | ⟨rest, rfl⟩ | ⟨rest, -, rfl⟩ :=
    step_cases hstep
  · exact inv_of_idle_clear hm rfl rfl rfl
  · exact inv_datapath h _ t k
  · exact inv_commandEffect (inv_withHost h rest) ha w
  · exact inv_withMessage (inv_withHost h rest) hm
  · exact inv_withHost h rest
  · exact inv_stageEffect (inv_withHost h rest)

end Sys2Proof.Proofs
end
section
/-! PROOFS. Two computations of one message at one width agree, whatever the core held before (spec/10_state.md R41;
spec/45_host_commands.md R194). -/

namespace Sys2Proof.Proofs

open Sys2Proof.Machine Sys2Proof.Laws

/-- Two cores are asked for the digest of the same message at the same width, and show the host the same. -/
structure SameRequest (s₁ s₂ : State) : Prop where
  configured : s₁.cfg ≠ none
  cfg : s₁.cfg = s₂.cfg
  len : s₁.len = s₂.len
  message : ∀ a < s₁.len.toNat, s₁.msg.byteAt a = s₂.msg.byteAt a
  phase : s₁.phase = s₂.phase
  done : s₁.done = s₂.done
  errCode : s₁.errCode = s₂.errCode
  digest : s₁.done = true → s₁.digest.toList.take (dlen s₁.cfg) = s₂.digest.toList.take (dlen s₂.cfg)

/-- Two cores are at the same point of that computation: everything the rules fix is equal. Nothing is said of `M`, `K`,
`T`, the lanes of `DIGEST` the host is not promised, or the memory outside the message. -/
structure SameComputation (s₁ s₂ : State) : Prop extends SameRequest s₁ s₂ where
  h : s₁.h = s₂.h
  n : s₁.n = s₂.n
  sigma : s₁.sigma = s₂.sigma
  pos : s₁.pos = s₂.pos

section Stages

variable {s₁ s₂ : State} (hs : SameComputation s₁ s₂)
include hs

/-- The same number of bytes remains to both cores (R163). -/
theorem remaining_eq_of_sameComputation : remaining s₁ = remaining s₂ := by
  rw [remaining, remaining, hs.len, hs.pos]

/-- Within the message the two cores read the same bytes, or neither can read them (R56). -/
theorem memRead_eq_of_sameComputation {l : Nat} (hl : l ≤ remaining s₁) :
    memRead s₁.msg s₁.pos.toNat l = memRead s₂.msg s₂.pos.toNat l := by
  rw [← hs.pos]
  refine memRead_congr fun i hi => hs.message _ ?_
  have hrem : remaining s₁ = s₁.len.toNat - s₁.pos.toNat := rfl
  omega

/-- Both cores abort at the same position (R202, R206). -/
theorem sameComputation_violation :
    SameComputation (raise .invariantViolation s₁.pos s₁) (raise .invariantViolation s₂.pos s₂) :=
  { hs with phase := rfl, done := rfl, errCode := rfl, digest := nofun }

/-- Both cores absorb the same block (R164, R165). -/
theorem sameComputation_absorbBlock (p : Phase) (m inc : Vec512) (l : Nat) :
    SameComputation (enterPhase p (absorbBlock m inc l s₁)) (enterPhase p (absorbBlock m inc l s₂)) := by
  rw [absorbBlock, absorbBlock, compressInto, compressInto, enterPhase_writeBlock, enterPhase_writeBlock, hs.h, hs.n,
    hs.sigma, hs.pos]
  exact { hs with h := rfl, n := rfl, sigma := rfl, pos := rfl, phase := rfl }

/-- Both cores make the same finalization compression (R166, R167). -/
theorem sameComputation_finalize (p : Phase) {m₁ m₂ : Vec512} (hm : m₁ = m₂) :
    SameComputation (enterPhase p (compressInto romZero512 m₁ s₁)) (enterPhase p (compressInto romZero512 m₂ s₂)) := by
  rw [compressInto, compressInto, enterPhase_writeChaining, enterPhase_writeChaining, hs.h, hm]
  exact { hs with h := rfl, phase := rfl }

/-- The host reads the same digest of both cores (R12, R25). -/
theorem outputs_digest_eq_of_sameComputation : (outputs s₁).digest = (outputs s₂).digest := by
  simp only [outputs, ← hs.done]
  cases h : s₁.done with
  | false => rfl
  | true => exact congrArg some (hs.digest h)

/-- Both cores read the same block and absorb it, or both abort (R164, R202). -/
theorem sameComputation_fullStage (hd : 64 ≤ remaining s₁) : SameComputation (fullStage s₁) (fullStage s₂) := by
  unfold fullStage
  rw [memRead_eq_of_sameComputation hs hd]
  cases memRead s₂.msg s₂.pos.toNat 64 with
  | none => exact sameComputation_violation hs
  | some b => exact sameComputation_absorbBlock hs _ _ _ _

/-- Both cores read the same tail and absorb it, or both abort (R165, R202). -/
theorem sameComputation_tailStage : SameComputation (tailStage s₁) (tailStage s₂) := by
  unfold tailStage
  rw [memRead_eq_of_sameComputation hs le_rfl, remaining_eq_of_sameComputation hs]
  cases memRead s₂.msg s₂.pos.toNat (remaining s₂) with
  | none => exact sameComputation_violation hs
  | some b => exact sameComputation_absorbBlock hs _ _ _ _

end Stages

/-- `INIT` needs the request alone: nothing of `H`, `N`, `SIGMA` and `POS` survives it (R160). -/
theorem sameComputation_initStage {s₁ s₂ : State} (hr : SameRequest s₁ s₂) :
    SameComputation (initStage s₁) (initStage s₂) :=
  { hr with phase := rfl, h := congrArg initialChaining hr.cfg, n := rfl, sigma := rfl, pos := rfl }

/-- The lanes `OUT` writes at width 256 that the host is promised are the truncated chaining value (R168). -/
theorem take_digest256 (s : State) : (digest256 s).toList.take 32 = (trunc256 s.h).toList := by
  apply List.ext_getElem
  · simp
  · intro j h₁ h₂
    have hj : j < 32 := by simpa using h₂
    simp [digest256, hj]

/-- The promised lanes after `OUT` at width 256 (R168). -/
theorem take_digest_outStage_w256 {s : State} (h : s.cfg = some .w256) :
    (outStage s).digest.toList.take (dlen (outStage s).cfg) = (trunc256 s.h).toList := by
  simp only [outStage, h, dlen, take_digest256]

/-- The promised lanes after `OUT` at width 512 (R168). -/
theorem take_digest_outStage_w512 {s : State} (h : s.cfg = some .w512) :
    (outStage s).digest.toList.take (dlen (outStage s).cfg) = (rev512 s.h).toList := by
  simp [outStage, h, dlen]

/-- Both cores write the same promised lanes (R168). -/
theorem sameComputation_outStage {s₁ s₂ : State} (hs : SameComputation s₁ s₂) :
    SameComputation (outStage s₁) (outStage s₂) := by
  have lanes : (outStage s₁).digest.toList.take (dlen (outStage s₁).cfg) =
      (outStage s₂).digest.toList.take (dlen (outStage s₂).cfg) := by
    obtain ⟨w, h₁⟩ := Option.ne_none_iff_exists'.1 hs.configured
    have h₂ : s₂.cfg = some w := hs.cfg ▸ h₁
    cases w with
    | w256 => rw [take_digest_outStage_w256 h₁, take_digest_outStage_w256 h₂, hs.h]
    | w512 => rw [take_digest_outStage_w512 h₁, take_digest_outStage_w512 h₂, hs.h]
  obtain ⟨d₁, k₁, e₁, -⟩ := outStage_cases s₁
  obtain ⟨d₂, k₂, e₂, -⟩ := outStage_cases s₂
  rw [e₁, e₂] at lanes ⊢
  exact { hs with phase := rfl, done := rfl, digest := fun _ => lanes }

/-- Two cores at the same point of a computation are so after the next stage (R172). -/
theorem sameComputation_stageEffect {s₁ s₂ : State} (hs : SameComputation s₁ s₂) :
    SameComputation (stageEffect s₁) (stageEffect s₂) := by
  have hd : fullBlockDue s₂ = fullBlockDue s₁ := by
    rw [fullBlockDue, fullBlockDue, remaining_eq_of_sameComputation hs]
  unfold stageEffect
  rw [← hs.phase, hd]
  cases s₁.phase with
  | idle => exact hs
  | init => exact sameComputation_initStage hs.toSameRequest
  | absorb =>
    cases h : fullBlockDue s₁ with
    | true => exact sameComputation_fullStage hs ((fullBlockDue_iff s₁).1 h)
    | false => exact sameComputation_tailStage hs
  | finN => exact sameComputation_finalize hs .finS hs.n
  | finS => exact sameComputation_finalize hs .out hs.sigma
  | out => exact sameComputation_outStage hs

/-- Two cores at the same point of a computation stay so, stage by stage. -/
theorem sameComputation_iterate {s₁ s₂ : State} (hs : SameComputation s₁ s₂) (k : Nat) :
    SameComputation (stageEffect^[k] s₁) (stageEffect^[k] s₂) := by
  induction k generalizing s₁ s₂ with
  | zero => exact hs
  | succ k ih => exact ih (sameComputation_stageEffect hs)

/-- Settles O52: `INIT` brings two such cores to the same point of the computation, and every later stage keeps them there. -/
theorem nothingOfThePastReachesTheDigest : Obligations.NothingOfThePastReachesTheDigest := by
  intro s₁ s₂ k p₁ p₂ hc cfg err₁ err₂ d₁ d₂ len message c₁ c₂ hk
  obtain ⟨k, rfl⟩ := Nat.exists_eq_add_of_le' hk
  have request : SameRequest s₁ s₂ :=
    ⟨hc, cfg, len, message, p₁.trans p₂.symm, d₁.trans d₂.symm, err₁.trans err₂.symm, by simp [d₁]⟩
  have started : SameComputation (stageEffect s₁) (stageEffect s₂) := by
    rw [stageEffect, stageEffect, p₁, p₂]
    exact sameComputation_initStage request
  have hs := sameComputation_iterate started k
  exact ⟨_, _, run_controller c₁ (k + 1), run_controller c₂ (k + 1), hs.h, hs.n, hs.sigma, hs.pos, hs.phase, hs.done,
    hs.errCode, outputs_digest_eq_of_sameComputation hs⟩

end Sys2Proof.Proofs
end
section
/-! PROOFS. Status outputs and reset values (spec/10_state.md R35, R38), the events that change the status (R28, R32;
spec/60_exceptions.md R202, R203, R210), and the write columns of the access table (R37). -/

namespace Sys2Proof.Proofs

open Sys2Proof.Machine Sys2Proof.Laws

/-! ### Status outputs and the reset state -/

/-- Settles O15: `State.reset` evaluates to the values R38 and R231 give it. -/
theorem resetStateValues : Obligations.ResetStateValues := by
  refine ⟨rfl, rfl, rfl, rfl, rfl, ?_⟩
  decide

/-- Settles O46: at reset the core is at rest without error and without a digest. -/
theorem invariantHoldsAtReset : Obligations.InvariantHoldsAtReset := inv_of_idle_clear wf_nil rfl rfl rfl

/-- `ERR` is 1 exactly with an error recorded (R33). -/
theorem err_iff (s : State) : err s = true ↔ s.errCode ≠ none := Option.isSome_iff_ne_none

/-- The codes 2 and 3 are those of the two fatal errors (R33, R205). -/
theorem errCodeBits_fatal_iff (e : Option CoreError) :
    errCodeBits e = 2#2 ∨ errCodeBits e = 3#2 ↔ e = some .invariantViolation ∨ e = some .illegalCommand := by
  rcases e with _ | e
  · decide
  · cases e <;> decide

/-- Settles O40: each output is its register's code, and acceptance is the absence of `BUSY` and `FATAL`. -/
theorem statusOutputsFollowTheRegisters : Obligations.StatusOutputsFollowTheRegisters := by
  refine ⟨fun s => ⟨busy_iff s, err_iff s, ?_, ?_⟩, rfl, rfl, rfl, rfl, rfl, rfl, rfl, rfl, rfl⟩
  · exact (fatal_iff s).trans (errCodeBits_fatal_iff s.errCode).symm
  · simp [accepts, outputs]

/-! ### Only these events change the status -/

/-- `FATAL` is derived from `ERR_CODE` alone (R35). -/
theorem fatal_congr {s u : State} (h : u.errCode = s.errCode) : fatal u = fatal s := by
  rw [fatal, fatal, h]

/-- A core that accepts commands is not in the fatal state (R190). -/
theorem fatal_eq_false_of_accepts {s : State} (h : accepts s = true) : fatal s = false := by
  have both : busy s = false ∧ fatal s = false := by simpa [accepts] using h
  exact both.2

/-- Every accepted command clears `DONE` (R191, R192, R206). -/
theorem commandEffect_done (w : CmdWord) (s : State) : (commandEffect w s).done = false := by
  obtain ⟨_, -, e⟩ | ⟨_, -, e⟩ | ⟨-, -, e⟩ | ⟨-, -, e⟩ := commandEffect_cases w s <;> rw [e] <;> rfl

/-- An accepted command is fatal only with an illegal opcode (R203). -/
theorem illegal_of_fatal_commandEffect {w : CmdWord} {s : State} (ha : accepts s = true)
    (hf : fatal (commandEffect w s) = true) : opField w ≠ 0x01#8 ∧ opField w ≠ 0x02#8 := by
  obtain ⟨_, -, e⟩ | ⟨_, -, e⟩ | ⟨-, -, e⟩ | ⟨h1, h2, -⟩ := commandEffect_cases w s
  · simp [e, fatal] at hf
  · simp [e, fatal, clearConfigError_of_accepts ha] at hf
  · have kept : fatal (commandEffect w s) = fatal s := fatal_congr (by rw [e])
    rw [kept, fatal_eq_false_of_accepts ha] at hf
    cases hf
  · exact ⟨h1, h2⟩

/-- A byte of the transaction the next stage issues is missing from the message memory (R202). -/
def ReadFaults (s : State) : Prop :=
  ∃ a n i, messageRequest s = some (a, n) ∧ i < n ∧ s.msg.byteAt (a + i) = none

/-- In phase `ABSORB` a read of the bytes due that is answered `fault` is a fault of the stage's transaction (R56, R163). -/
theorem readFaults_of_memRead_eq_none {s : State} {l : Nat} (hp : s.phase = .absorb) (hl : l = min 64 (remaining s))
    (h : memRead s.msg s.pos.toNat l = none) : ReadFaults s := by
  obtain ⟨i, hi, hb⟩ := memRead_eq_none.1 h
  refine ⟨s.pos.toNat, l, i, ?_, hi, hb⟩
  unfold messageRequest
  rw [if_pos hp]
  split
  · rw [hl, Nat.min_eq_left ‹_›]
  · rw [if_neg (by omega), hl, Nat.min_eq_right (by omega)]

/-- What a stage does to the status: it aborts on a read fault, it is `OUT`, or it leaves `DONE`, `ERR_CODE` and `CFG` alone
(R168, R202). -/
theorem stageEffect_status (s : State) :
    (s.phase = .absorb ∧ ReadFaults s ∧ stageEffect s = raise .invariantViolation s.pos s) ∨
    ((stageEffect s).errCode = s.errCode ∧ (stageEffect s).cfg = s.cfg ∧
      ((stageEffect s).done = s.done ∨ s.phase = .out ∧ (stageEffect s).phase = .idle)) := by
  unfold stageEffect
  cases hp : s.phase with
  | idle => exact .inr ⟨rfl, rfl, .inl rfl⟩
  | init => exact .inr ⟨rfl, rfl, .inl rfl⟩
  | absorb =>
    cases hd : fullBlockDue s with
    | true =>
      have hl : 64 = min 64 (remaining s) := (Nat.min_eq_left ((fullBlockDue_iff s).1 hd)).symm
      obtain ⟨hr, e⟩ | ⟨_, _, _, _, _, _, -, -, -, -, -, -, e⟩ := fullStage_cases s
      · exact .inl ⟨rfl, readFaults_of_memRead_eq_none hp hl hr, e⟩
      · simp [e]
    | false =>
      have hlt : ¬ 64 ≤ remaining s := by simpa [fullBlockDue] using hd
      have hl : remaining s = min 64 (remaining s) := by omega
      obtain ⟨hr, e⟩ | ⟨_, _, _, _, _, _, -, -, -, -, -, -, e⟩ := tailStage_cases s
      · exact .inl ⟨rfl, readFaults_of_memRead_eq_none hp hl hr, e⟩
      · simp [e]
  | finN =>
    obtain ⟨_, _, -, -, e⟩ := finNStage_cases s
    simp [e]
  | finS =>
    obtain ⟨_, _, -, -, e⟩ := finSStage_cases s
    simp [e]
  | out =>
    obtain ⟨_, _, e, -⟩ := outStage_cases s
    simp [e]

/-- The host presents the command word `w`. -/
def Presents (s : State) (w : CmdWord) : Prop :=
  ∃ rest, s.host = .command w :: rest ∨ s.host = .hold w :: rest

/-- What a step does to the status: it is a reset, an accepted command, a read fault, `OUT`, or it leaves `DONE`, `ERR_CODE`
and `CFG` alone (R28, R32, R202, R203, R230). -/
theorem step_status {s u : State} (h : step s = .next u) :
    (resetAsserted s = true ∧ u.done = false ∧ fatal u = false) ∨
    (accepts s = true ∧ u.done = false ∧ ∃ w, Presents s w ∧
      (fatal u = true → opField w ≠ 0x01#8 ∧ opField w ≠ 0x02#8)) ∨
    (s.phase = .absorb ∧ ReadFaults s ∧ u.done = false ∧ fatal u = true ∧ u.cfg = s.cfg) ∨
    (u.errCode = s.errCode ∧ u.cfg = s.cfg ∧ (u.done = s.done ∨ s.phase = .out ∧ u.phase = .idle)) := by
  obtain ⟨rest, hh, rfl⟩ | ⟨r, t, k, rfl⟩ | ⟨w, rest, -, hh, ha, rfl⟩ | ⟨m, rest, rfl⟩ | ⟨rest, rfl⟩ | ⟨rest, -, rfl⟩ :=
    step_cases h
  · exact .inl ⟨by rw [resetAsserted, hh], rfl, rfl⟩
  · exact .inr (.inr (.inr ⟨rfl, rfl, .inl rfl⟩))
  · have illegal := illegal_of_fatal_commandEffect (w := w) (s := withHost rest s) ha
    exact .inr (.inl ⟨ha, commandEffect_done w _, w, ⟨rest, hh⟩, illegal⟩)
  · exact .inr (.inr (.inr ⟨rfl, rfl, .inl rfl⟩))
  · exact .inr (.inr (.inr ⟨rfl, rfl, .inl rfl⟩))
  · obtain ⟨hp, hr, e⟩ | kept := stageEffect_status (withHost rest s)
    · rw [e]
      exact .inr (.inr (.inl ⟨hp, hr, rfl, rfl, rfl⟩))
    · exact .inr (.inr (.inr kept))

/-- Settles O49, by what a step can do to the status. -/
theorem onlyTheseEventsChangeTheStatus : Obligations.OnlyTheseEventsChangeTheStatus := by
  intro s u h
  obtain ⟨hr, hd, hf⟩ | ⟨ha, hd, w, ⟨rest, hh⟩, hill⟩ | ⟨hp, hr, hd, hf, hc⟩ | ⟨he, hc, hd⟩ := step_status h
  · exact ⟨by simp [hd], fun _ _ => hr, by simp [hf], fun _ => .inl hr⟩
  · have hs := fatal_eq_false_of_accepts ha
    exact ⟨by simp [hd], by simp [hs], fun _ hf => .inr ⟨ha, w, rest, hh, hill hf⟩, fun _ => .inr ⟨ha, w, rest, hh⟩⟩
  · exact ⟨by simp [hd], by simp [hf], fun _ _ => .inl ⟨hp, hr⟩, fun hne => absurd hc hne⟩
  · have hf := fatal_congr he
    refine ⟨fun h0 h1 => hd.resolve_left ?_, ?_, ?_, fun hne => absurd hc hne⟩
    · simp [h0, h1]
    · simp +contextual [hf]
    · simp +contextual [hf]

/-! ### The write columns of the access table -/

/-- A command offered to the channel has its effect, at a core at rest, or none (R190). -/
theorem offer_cases (s e : State) : offer s e = s ∨ s.phase = .idle ∧ offer s e = e := by
  cases h : accepts s with
  | false => exact .inl (offer_of_not_accepts h e)
  | true => exact .inr ⟨((accepts_iff s).1 h).1, offer_of_accepts h e⟩

/-- Settles O36, operation by operation: the commands, the stages, the two operations that write `K` and `T`, and the
datapath operations that write no register (R37, R125). -/
theorem accessTable : Obligations.AccessTable := by
  intro i s u h
  cases i with
  | construct w =>
    cases h
    obtain e | ⟨hp, e⟩ := offer_cases s (constructEffect w s) <;> rw [e]
    · simp
    · obtain ⟨-, -, e⟩ | ⟨_, -, e⟩ := constructEffect_cases w s <;> simp [e, hp]
  | compute l =>
    cases h
    obtain e | ⟨-, e⟩ := offer_cases s (computeEffect l s) <;> rw [e]
    · simp
    · obtain ⟨-, e⟩ | ⟨-, e⟩ := computeEffect_cases l s <;> simp [e]
  | init =>
    obtain ⟨-, rfl⟩ := whenDue_eq_next.1 h
    simp
  | full =>
    obtain ⟨-, rfl⟩ := whenDue_eq_next.1 h
    obtain ⟨-, e⟩ | ⟨_, _, _, _, _, _, -, -, -, -, -, -, e⟩ := fullStage_cases s <;> simp [e]
  | tail =>
    obtain ⟨-, rfl⟩ := whenDue_eq_next.1 h
    obtain ⟨-, e⟩ | ⟨_, _, _, _, _, _, -, -, -, -, -, -, e⟩ := tailStage_cases s <;> simp [e]
  | finN =>
    obtain ⟨-, rfl⟩ := whenDue_eq_next.1 h
    obtain ⟨_, _, -, -, e⟩ := finNStage_cases s
    simp [e]
  | finS =>
    obtain ⟨-, rfl⟩ := whenDue_eq_next.1 h
    obtain ⟨_, _, -, -, e⟩ := finSStage_cases s
    simp [e]
  | out =>
    obtain ⟨-, rfl⟩ := whenDue_eq_next.1 h
    obtain ⟨_, _, e, -⟩ := outStage_cases s
    simp [e]
  | e =>
    obtain ⟨_, _, _, e⟩ := exec_selected (sel := 9#4) (i := .e) rfl s
    cases e.symm.trans h
    simp
  | g =>
    obtain ⟨_, _, _, e⟩ := exec_selected (sel := 10#4) (i := .g) rfl s
    cases e.symm.trans h
    simp
  | x | s | p | l | add512 | lps | keystep | round | ingest | pad | rev512 | trunc256 =>
    cases h
    simp

end Sys2Proof.Proofs
end
section
/-! PROOFS. The message memory: no operation writes it (spec/20_memory.md R52, R60), the controller reads aligned
transactions inside the message and nothing else of it (R56, R57, R64), and what the host's writes do to it (R50, R90). -/

namespace Sys2Proof.Proofs

open Sys2Proof.Machine Sys2Proof.Laws

/-! ### What an operation is, by the code space that selects it -/

/-- The opcode of a command word is the one it was built from (R81). -/
@[simp] theorem opField_commandWord (op : BitVec 8) (arg : Word64) : opField (commandWord op arg) = op :=
  BitVec.extractLsb'_append_eq_left

/-- The operand of a command word is the one it was built from (R81). -/
@[simp] theorem argField_commandWord (op : BitVec 8) (arg : Word64) : argField (commandWord op arg) = arg :=
  BitVec.extractLsb'_append_eq_right

/-- Every operation is what its code word decodes to (R82, R85, R86). -/
theorem decode_encode (i : Instr) : decode (encode i) = .ok i := by
  cases i with
  | construct w => simp [encode, decode, decodeCommand]
  | compute l => simp [encode, decode, decodeCommand]
  | _ => rfl

/-- A command by itself is the effect of its word, offered to the channel (R190). -/
theorem exec_command {w : CmdWord} {i : Instr} (h : decodeCommand w = .ok i) (s : State) :
    exec i s = .next (offer s (commandEffect w s)) := by
  unfold decodeCommand at h
  split at h
  next h1 =>
    cases h
    simp [exec, execConstruct, commandEffect, h1]
  next h1 =>
    split at h
    next h2 =>
      cases h
      simp [exec, execCompute, commandEffect, h2]
    next => cases h

/-- A stage by itself goes on only where it is due, and then with the effect of the controller's step (R85, R163). -/
theorem eq_stageEffect_of_exec {code : BitVec 3} {full : Bool} {i : Instr} (h : decodeStage code full = .ok i)
    {s u : State} (hu : exec i s = .next u) : u = stageEffect s := by
  unfold decodeStage at h
  cases full <;> split at h <;> cases h
  all_goals
    obtain ⟨due, rfl⟩ := whenDue_eq_next.1 hu
    simp_all [stageEffect]

/-! ### No operation writes the message memory -/

/-- The commands do not touch the host's script. -/
@[simp] theorem commandEffect_host (w : CmdWord) (s : State) : (commandEffect w s).host = s.host := by
  obtain ⟨_, -, e⟩ | ⟨_, -, e⟩ | ⟨-, -, e⟩ | ⟨-, -, e⟩ := commandEffect_cases w s <;> simp [e]

/-- No operation writes the message memory or the host's script, code space by code space (R60). -/
theorem msg_and_host_exec {i : Instr} {s u : State} (h : exec i s = .next u) : u.msg = s.msg ∧ u.host = s.host := by
  have hd := decode_encode i
  cases hc : encode i with
  | command w =>
    rw [hc] at hd
    cases (exec_command hd s).symm.trans h
    obtain e | ⟨-, e⟩ := offer_cases s (commandEffect w s) <;> simp [e]
  | stage code full =>
    rw [hc] at hd
    rw [eq_stageEffect_of_exec hd h]
    exact ⟨stageEffect_msg s, stageEffect_host s⟩
  | datapath sel =>
    rw [hc] at hd
    obtain ⟨_, _, _, e⟩ := exec_selected hd s
    cases e.symm.trans h
    exact ⟨rfl, rfl⟩

/-- Settles O35: commands, stages and datapath operations each leave the memory and the script alone. -/
theorem noOperationWritesTheMessage : Obligations.NoOperationWritesTheMessage := by
  intro i s u h
  obtain ⟨hm, hh⟩ := msg_and_host_exec h
  exact ⟨hm, fun a => by rw [hm], hh⟩

/-! ### The controller's reads -/

/-- The transaction of the next stage: in phase `ABSORB` with bytes left, from `POS` on as many of them as a block takes
(R56, R163). -/
theorem messageRequest_eq_some_iff {s : State} {a n : Nat} :
    messageRequest s = some (a, n) ↔
      s.phase = .absorb ∧ remaining s ≠ 0 ∧ s.pos.toNat = a ∧ min 64 (remaining s) = n := by
  unfold messageRequest
  by_cases hp : s.phase = .absorb
  · by_cases hfull : 64 ≤ remaining s
    · have left : remaining s ≠ 0 := by omega
      simp [hp, hfull, left]
    · by_cases hempty : remaining s = 0
      · simp [hp, hempty]
      · have tail : min 64 (remaining s) = remaining s := by omega
        simp [hp, hfull, hempty, tail]
  · simp [hp]

/-- Settles O37: the transaction starts at `POS`, which is aligned, and takes at most what remains up to `LEN`. -/
theorem messageReadsAreAligned : Obligations.MessageReadsAreAligned := by
  intro s a n hinv hreq
  obtain ⟨hp, hleft, rfl, rfl⟩ := messageRequest_eq_some_iff.1 hreq
  obtain ⟨hle, haligned, -⟩ := hinv.absorbing hp
  have hsum : s.pos.toNat + remaining s = s.len.toNat := Nat.add_sub_cancel' hle
  omega

/-- Settles O38: on the controller's turn the step is the stage, which commutes with a change of the memory outside its
transaction. -/
theorem stageReadsOnlyItsTransaction : Obligations.StageReadsOnlyItsTransaction := by
  intro s m' hh hsel hm
  have stage : step s = .next (stageEffect s) := step_eq_controllerStep hsel hh
  have stage' : step (withMessage m' s) = .next (stageEffect (withMessage m' s)) := step_eq_controllerStep hsel hh
  rw [stageEffect_withMessage s m' hm] at stage'
  exact ⟨stageEffect s, stage, stage'⟩

/-! ### The host's writes -/

section HostWrites

variable {s : State} {rest : List HostAction} (hsel : s.dp.sel = 0#4)
include hsel

/-- The host's write of one byte, as a step (R50). -/
theorem step_write {a : Word64} {b : Byte} (hh : s.host = .write a b :: rest) :
    step s = .next (withMessage (s.msg.write a.toNat b) (withHost rest s)) := by
  rw [step_eq_hostStep hsel, hostStep, hh]

/-- The host's withdrawal of one byte, as a step (R56). -/
theorem step_withdraw {a : Word64} (hh : s.host = .withdraw a :: rest) :
    step s = .next (withMessage (s.msg.erase a.toNat) (withHost rest s)) := by
  rw [step_eq_hostStep hsel, hostStep, hh]

/-- The host's placement of a message, as a step (R90). -/
theorem step_message {bs : List Byte} (hh : s.host = .message bs :: rest) :
    step s = .next (withMessage (s.msg.writeList 0 bs) (withHost rest s)) := by
  rw [step_eq_hostStep hsel, hostStep, hh]

end HostWrites

/-- Settles O39: each action changes the memory and the script alone, and the memory reads as the read-after-write laws
say. -/
theorem hostWritesChangeOnlyTheMessage : Obligations.HostWritesChangeOnlyTheMessage := by
  intro s rest a b hsel hwf
  refine ⟨fun hh => ⟨_, step_write hsel hh, rfl, rfl, fun x => ?_⟩,
    fun hh => ⟨_, step_withdraw hsel hh, rfl, rfl, fun x => ?_⟩,
    fun bs hlen hh => ⟨_, step_message hsel hh, rfl, rfl, fun x => ?_⟩⟩
  · exact (byteAt_write _ _ _ _ a.isLt).trans (if_congr eq_comm rfl rfl)
  · exact (byteAt_erase _ _ _ hwf).trans (if_congr eq_comm rfl rfl)
  · have hfit : 0 + bs.length ≤ Config.messageSpace := (Nat.zero_add _).trans_le hlen
    rw [withMessage_msg, byteAt_writeList _ _ _ hfit]
    simp only [Nat.zero_le, Nat.zero_add, true_and, Nat.sub_zero]

end Sys2Proof.Proofs
end

section
/-! PROOFS. Decoding and encoding in the three code spaces, and what a step makes of a decoded operation
(spec/30_encoding.md R80 to R91; spec/44_scheduler_finalizer.md R163). -/

namespace Sys2Proof.Proofs

open Sys2Proof.Machine Sys2Proof.Laws

/-! ### Encoding what a code word decodes to -/

/-- A command word is rebuilt from the operation it decodes to, with the whole operand (R82, R83, R84). -/
theorem encode_of_decodeCommand {w : CmdWord} {i : Instr} (h : decodeCommand w = .ok i) : encode i = .command w := by
  have rebuilt (op : BitVec 8) (hop : opField w = op) : commandWord op (argField w) = w := hop ▸ commandWord_fields w
  unfold decodeCommand at h
  split at h
  next hop =>
    cases h
    exact congrArg CodeWord.command (rebuilt _ hop)
  next =>
    split at h
    next hop =>
      cases h
      exact congrArg CodeWord.command (rebuilt _ hop)
    next => cases h

/-- The `PHASE` code is recovered from the stage it selects (R85). -/
theorem encode_of_decodeStage {ph : BitVec 3} {full : Bool} {i : Instr} (h : decodeStage ph full = .ok i) :
    ∃ full', encode i = .stage ph full' := by
  unfold decodeStage at h
  cases full <;> split at h <;> cases h
  all_goals
    rename_i code
    exact ⟨_, congrArg (CodeWord.stage · _) (BitVec.eq_of_toNat_eq code.symm)⟩

/-- The `DPSEL` code is recovered from the operation it names (R86). -/
theorem encode_of_decodeSelect {sel : BitVec 4} {i : Instr} (h : decodeSelect sel = .ok i) : encode i = .datapath sel := by
  unfold decodeSelect at h
  split at h <;> cases h
  all_goals
    rename_i code
    exact congrArg CodeWord.datapath (BitVec.eq_of_toNat_eq code.symm)

/-! ### Exactly the well-formed code words decode -/

/-- The code word of every operation is well formed. -/
theorem wellFormed_encode (i : Instr) : (encode i).wellFormed = true := by
  cases i with
  | construct width => exact CodeWordWellFormed.construct width
  | compute len => exact CodeWordWellFormed.compute len
  | _ => rfl

/-- A code word that decodes is well formed, since encoding gives it back. -/
theorem wellFormed_of_decode {c : CodeWord} {i : Instr} (h : decode c = .ok i) : c.wellFormed = true := by
  have wf := wellFormed_encode i
  cases c with
  | command w => rwa [encode_of_decodeCommand h] at wf
  | stage ph full =>
    obtain ⟨full', e⟩ := encode_of_decodeStage h
    rwa [e] at wf
  | datapath sel => rwa [encode_of_decodeSelect h] at wf

/-- The two opcodes decode (R82). -/
theorem exists_decodeCommand {w : CmdWord} (h : opField w = 0x01#8 ∨ opField w = 0x02#8) :
    ∃ i, decodeCommand w = .ok i := by
  obtain h | h := h
  · exact ⟨.construct (argField w), by simp [decodeCommand, h]⟩
  · exact ⟨.compute (argField w), by simp [decodeCommand, h]⟩

/-- The phase codes 1 to 5 select a stage, whatever remains of the message (R85). -/
theorem exists_decodeStage {ph : BitVec 3} (full : Bool) (h : 1 ≤ ph.toNat ∧ ph.toNat ≤ 5) :
    ∃ i, decodeStage ph full = .ok i := by
  obtain ⟨low, high⟩ := h
  unfold decodeStage
  cases full <;> interval_cases ph.toNat <;> exact ⟨_, rfl⟩

/-- The select codes 1 to 14 name an operation (R86). -/
theorem exists_decodeSelect {sel : BitVec 4} (h : 1 ≤ sel.toNat ∧ sel.toNat ≤ 14) : ∃ i, decodeSelect sel = .ok i := by
  obtain ⟨low, high⟩ := h
  unfold decodeSelect
  interval_cases sel.toNat <;> exact ⟨_, rfl⟩

/-- A well-formed code word decodes, code space by code space. -/
theorem exists_decode_of_wellFormed {c : CodeWord} (h : c.wellFormed = true) : ∃ i, decode c = .ok i := by
  cases c with
  | command w => exact exists_decodeCommand (by simpa [CodeWord.wellFormed, opField] using h)
  | stage ph full => exact exists_decodeStage full (of_decide_eq_true h)
  | datapath sel => exact exists_decodeSelect (of_decide_eq_true h)

/-- Settles O4: `decode_encode`, its converse in each code space, and well-formedness as what decodes. -/
theorem decodeAndEncodeAgree : Obligations.DecodeAndEncodeAgree :=
  ⟨decode_encode, fun _ _ => encode_of_decodeCommand, fun _ _ _ => encode_of_decodeStage,
    fun _ _ => encode_of_decodeSelect, fun _ => ⟨exists_decode_of_wellFormed, fun ⟨_, h⟩ => wellFormed_of_decode h⟩⟩

/-! ### The tables -/

/-- The mask of R82 keeps the opcode. -/
theorem opField_and_mask (w : CmdWord) : opField (w &&& 0xFF0000000000000000#72) = opField w := by
  have all : (0xFF0000000000000000#72).extractLsb' 64 8 = BitVec.allOnes 8 := by decide
  rw [opField, BitVec.extractLsb'_and, all, BitVec.and_allOnes, opField]

/-- The operand is the low 64 bits (R81). -/
theorem argField_eq_setWidth (w : CmdWord) : argField w = w.setWidth 64 := by
  rw [argField, BitVec.setWidth_eq_extractLsb' (by decide)]

/-- Settles O1: a word that matches under the mask has the match's opcode. -/
theorem commandOpcodesByMatchAndMask : Obligations.CommandOpcodesByMatchAndMask := by
  intro w
  have opcode (m : CmdWord) (h : w &&& 0xFF0000000000000000#72 = m) : opField w = opField m :=
    h ▸ (opField_and_mask w).symm
  refine ⟨fun h => ?_, fun h => ?_⟩
  · have hop : opField w = 0x01#8 := opcode _ h
    rw [decode, decodeCommand, if_pos hop, argField_eq_setWidth]
  · have hop : opField w = 0x02#8 := opcode _ h
    rw [decode, decodeCommand, hop, if_neg (by decide), if_pos rfl, argField_eq_setWidth]

/-- Settles O2: each written-out word evaluates to what its table says. -/
theorem writtenOutCodeWordsDecode : Obligations.WrittenOutCodeWordsDecode := by
  unfold Obligations.WrittenOutCodeWordsDecode
  decide

/-- Settles O3: both tables entry by entry; only the entry of `ABSORB` looks at the remaining length. -/
theorem phaseAndSelectTables : Obligations.PhaseAndSelectTables := by
  refine ⟨fun full => ⟨rfl, rfl, ?absorb, rfl, rfl, rfl, rfl, rfl⟩, ?selects⟩
  case absorb => cases full <;> rfl
  case selects => decide

/-! ### What a step makes of a decoded operation -/

/-- A selected datapath operation runs by itself, with the select back at `NONE`. -/
theorem step_eq_exec_of_select {s : State} {i : Instr} (hr : resetAsserted s = false) (h : decodeSelect s.dp.sel = .ok i) :
    step s = exec i (clearSelect s) := by
  simp [step, nextStep, hr, h]

/-- An accepted command word is the operation it decodes to (R190). -/
theorem presentCommand_of_decode {w : CmdWord} {i : Instr} {s : State} (ha : accepts s = true)
    (h : decodeCommand w = .ok i) : presentCommand w s = exec i s := by
  simp [presentCommand, ha, h]

/-- A core whose phase code decodes to a stage is busy (R35, R85). -/
theorem busy_of_decodeStage {s : State} {full : Bool} {i : Instr} (h : decodeStage (phaseCode s.phase) full = .ok i) :
    busy s = true := by
  rw [busy_iff]
  intro hp
  rw [hp] at h
  cases h

section HostTurn

variable {s : State} {rest : List HostAction} (hsel : s.dp.sel = 0#4)
include hsel

/-- While the host passes, the controller takes its step and the script moves on. -/
theorem step_pass (hh : s.host = .pass :: rest) : step s = controllerStep (withHost rest s) := by
  rw [step_eq_hostStep hsel, hostStep, hh]

/-- While the host waits for a busy core, the controller takes its step and the script stays (R90). -/
theorem step_wait_of_busy (hh : s.host = .wait :: rest) (hb : busy s = true) : step s = controllerStep s := by
  rw [step_eq_hostStep hsel, hostStep, hh]
  exact if_pos hb

/-- A wait ends at a core at rest (R90). -/
theorem step_wait_of_idle (hh : s.host = .wait :: rest) (hp : s.phase = .idle) : step s = .next (withHost rest s) := by
  have rested : ¬ busy s = true := by simp [busy_iff, hp]
  rw [step_eq_hostStep hsel, hostStep, hh]
  exact if_neg rested

/-- A word presented once to a core that accepts it is presented with the script moved on (R190). -/
theorem step_command (w : CmdWord) (hh : s.host = .command w :: rest) :
    step s = presentCommand w (withHost rest s) := by
  rw [step_eq_hostStep hsel, hostStep, hh]

/-- A held word is presented as soon as the core accepts it (R190). -/
theorem step_hold_of_accepts (w : CmdWord) (hh : s.host = .hold w :: rest) (ha : accepts s = true) :
    step s = presentCommand w (withHost rest s) := by
  rw [step_eq_hostStep hsel, hostStep, hh]
  exact if_pos ha

end HostTurn

/-- The controller takes no step in `IDLE` (R31). -/
theorem controllerStep_idle {s : State} (hp : s.phase = .idle) : controllerStep s = .next s := by
  rw [controllerStep_eq, stageEffect_idle hp]

/-- Settles O5, by whose turn the step is: the datapath's, the host's with a command word, or the controller's. -/
theorem stepRunsTheDecodedOperation : Obligations.StepRunsTheDecodedOperation := by
  intro s i rest w
  refine ⟨step_eq_exec_of_select, ?command, ?hold, ?empty, ?pass, ?wait, ?idleEmpty, ?idleHost⟩
  case command => exact fun hsel hh ha hd => (step_command hsel w hh).trans (presentCommand_of_decode ha hd)
  case hold => exact fun hsel hh ha hd => (step_hold_of_accepts hsel w hh ha).trans (presentCommand_of_decode ha hd)
  case empty =>
    intro hsel hh hd
    rw [step_eq_hostStep hsel, hostStep, hh]
    exact controllerStep_of_decode hd
  case pass => exact fun hsel hh hd => (step_pass hsel hh).trans (controllerStep_of_decode (s := withHost rest s) hd)
  case wait =>
    exact fun hsel hh hd => (step_wait_of_busy hsel hh (busy_of_decodeStage hd)).trans (controllerStep_of_decode hd)
  case idleEmpty => exact fun hsel hp hh => (step_eq_controllerStep hsel hh).trans (by rw [stageEffect_idle hp])
  case idleHost =>
    rintro hsel hp (hh | hh)
    · exact (step_pass hsel hh).trans (controllerStep_idle (s := withHost rest s) hp)
    · exact step_wait_of_idle hsel hh hp

/-! ### A stage that is not due -/

/-- A host's or controller's step always goes on. -/
theorem exists_hostStep (s : State) : ∃ t, hostStep s = .next t := by
  obtain ⟨_, _, e⟩ | ⟨_, _, -, -, e⟩ | ⟨_, _, e⟩ | ⟨_, e⟩ | ⟨_, e⟩ := hostStep_cases s <;> exact ⟨_, e⟩

/-- Every select code but 1111 names an operation or is `NONE` (R86, R88). -/
theorem decodeSelect_of_ne_reserved {sel : BitVec 4} (h : sel ≠ 0b1111#4) : sel = 0#4 ∨ ∃ i, decodeSelect sel = .ok i := by
  by_cases hnone : sel = 0#4
  · exact .inl hnone
  · exact .inr (exists_decodeSelect (by bv_omega))

/-- A step with reset asserted goes on (R230). -/
theorem exists_step_of_resetAsserted {s : State} (h : resetAsserted s = true) : ∃ t, step s = .next t := by
  obtain ⟨t, e⟩ := exists_hostStep s
  exact ⟨t, by simp [step, nextStep, h, e]⟩

/-- A step with any select code but the reserved one goes on. -/
theorem exists_step_of_ne_reserved {s : State} (h : s.dp.sel ≠ 0b1111#4) : ∃ t, step s = .next t := by
  cases hr : resetAsserted s with
  | true => exact exists_step_of_resetAsserted hr
  | false =>
    obtain hnone | ⟨i, hd⟩ := decodeSelect_of_ne_reserved h
    · rw [step_eq_hostStep hnone]
      exact exists_hostStep s
    · rw [step_eq_exec_of_select hr hd]
      obtain ⟨_, _, _, e⟩ := exec_selected hd (clearSelect s)
      exact ⟨_, e⟩

/-- The reserved select code stops the step, unless reset is asserted (R88). -/
theorem step_eq_fault_of_reserved {s : State} (h : s.dp.sel = 0b1111#4) (hr : resetAsserted s = false) :
    step s = .fault .reservedDatapathSelect := by
  simp [step, nextStep, hr, h, decodeSelect]

/-- A stage whose condition does not hold faults. -/
theorem whenDue_of_not_due {due : Bool} (h : ¬ due = true) (t : State) : whenDue due t = .fault .stageNotDue := if_neg h

/-- Settles O34: with no reset only the reserved select code stops a step, and each stage faults without its condition. -/
theorem stageOutOfPhaseFaults : Obligations.StageOutOfPhaseFaults := by
  refine ⟨fun s h => h.elim exists_step_of_ne_reserved exists_step_of_resetAsserted,
    fun s => step_eq_fault_of_reserved, fun s => ⟨?_, ?full, ?tail, ?_, ?_, ?_⟩⟩
  case full =>
    intro h
    refine whenDue_of_not_due (fun due => ?_) _
    obtain ⟨hp, hd⟩ := Bool.and_eq_true_iff.1 due
    exact h.elim (· (of_decide_eq_true hp)) (Nat.not_lt.2 ((fullBlockDue_iff s).1 hd))
  case tail =>
    intro h
    refine whenDue_of_not_due (fun due => ?_) _
    obtain ⟨hp, hd⟩ := Bool.and_eq_true_iff.1 due
    refine h.elim (· (of_decide_eq_true hp)) fun hfull => ?_
    simp [(fullBlockDue_iff s).2 hfull] at hd
  all_goals exact fun hp => whenDue_of_not_due (fun due => hp (of_decide_eq_true due)) _

/-! ### The pseudo-commands -/

/-- The actions of `HASH` are those of the three lines it abbreviates (R91). -/
theorem hash_actions (width len : Word64) : (ScriptLine.hash width len).actions =
    (ScriptLine.construct width).actions ++ (ScriptLine.compute len).actions ++ ScriptLine.wait.actions := rfl

/-- Settles O45: `HASH` by its three lines, `HASH256` and `HASH512` by `HASH` at their width. -/
theorem pseudoCommandsExpand : Obligations.PseudoCommandsExpand := ⟨hash_actions, fun _ => rfl, fun _ => rfl⟩

end Sys2Proof.Proofs
end

section
/-! PROOFS. The contents of the constant ROM and what the datapath's maps inherit from them (spec/40_constants_rom.md R105 to
R107, R109). -/

namespace Sys2Proof.Proofs

open Sys2Proof.Machine Sys2Proof.Laws

/-! ### The substitution box -/

/-- The rows of the inverse of `ROM.SBOX`, laid out as the table of R101. -/
def invSboxRow : Nat → BitVec 128
  | 0 => 0xa52d328f0e3038c054e69e39557e5291#128
  | 1 => 0x6403575a1c6007182172a8d129c6a43f#128
  | 2 => 0xe0278d0c82eaaeb49a6349e542e415b7#128
  | 3 => 0xc806709d417519c9aafc4dbf2a7384d5#128
  | 4 => 0xc3af2b86a7b1b25b46d39ffdd40f9c2f#128
  | 5 => 0x9b43efd979b6537fc1f023e7255eb51e#128
  | 6 => 0xa2dfa6feac22f9e24abc35caee78056b#128
  | 7 => 0x51e159a3f27156116a8994658cbb773c#128
  | 8 => 0x7b28abd231dec45fcccf762cb8d82e36#128
  | 9 => 0xdb69b31495be62a13b1666e95c6c6dad#128
  | 10 => 0x37614bb9e3baf1a08583da47c5b033fa#128
  | 11 => 0x966f6ec2f650ff5da98e171b977dec58#128
  | 12 => 0xf71ffb7c090d7a674587dce84f1d4e04#128
  | 13 => 0xebf8f33e3dbd8a88ddcd0b1398029380#128
  | 14 => 0x90d02434cbedf4ce99104440923a0126#128
  | _ => 0x121a4868f5818bc7d6200a08004cd774#128

/-- The byte `ROM.SBOX` takes to `y`. -/
def invSbox (y : Byte) : Byte := (invSboxRow (y.toNat / 16)).extractLsb' (8 * (15 - y.toNat % 16)) 8

/-- Entry by entry, `ROM.SBOX` takes the inverse table back to the index. -/
theorem romSbox_invSbox : ∀ y, romSbox (invSbox y) = y := by
  decide +kernel

/-- `ROM.SBOX` is a bijection: it reaches every byte (R109 (a)). -/
theorem romSbox_bijective : Function.Bijective romSbox :=
  Finite.surjective_iff_bijective.1 fun y => ⟨invSbox y, romSbox_invSbox y⟩

/-- `S` is a bijection, byte by byte (R109 (a)). -/
theorem sub512_bijective : Function.Bijective sub512 := by
  refine Finite.injective_iff_bijective.1 fun a b h => eq_of_byteOf fun i hi => romSbox_bijective.injective ?_
  rw [← byteOf_sub512 a hi, ← byteOf_sub512 b hi, h]

/-! ### The permutation -/

theorem romTau_lt {j : Nat} (h : j < 64) : romTau j < 64 := by
  unfold romTau
  omega

/-- Transposing twice changes nothing (R102). -/
theorem romTau_romTau {j : Nat} (h : j < 64) : romTau (romTau j) = j := by
  unfold romTau
  omega

/-- `P` is its own inverse (R109 (b)). -/
theorem perm512_perm512 (a : Vec512) : perm512 (perm512 a) = a :=
  eq_of_byteOf fun j hj => by rw [byteOf_perm512 _ hj, byteOf_perm512 _ (romTau_lt hj), romTau_romTau hj]

/-! ### Linear combinations of words over the bits of a word

`l64` is such a combination, of the rows of `ROM.A` (R123). -/

/-- The exclusive or of the words `c i` at the set bit positions `i < n` of `w`. -/
def xorWhereSet (c : Nat → Word64) (n : Nat) (w : Word64) : Word64 :=
  (List.range n).foldl (fun r i => if bitPos w i then r ^^^ c i else r) 0#64

theorem lin64_eq_xorWhereSet (w : Word64) : lin64 w = xorWhereSet romA 64 w := rfl

theorem xorWhereSet_zero (c : Nat → Word64) (w : Word64) : xorWhereSet c 0 w = 0#64 := rfl

theorem xorWhereSet_succ (c : Nat → Word64) (n : Nat) (w : Word64) :
    xorWhereSet c (n + 1) w = xorWhereSet c n w ^^^ if bitPos w n then c n else 0#64 := by
  rw [xorWhereSet, List.range_succ, List.foldl_append, List.foldl_cons, List.foldl_nil, ← xorWhereSet]
  split
  · rfl
  · exact BitVec.xor_zero.symm

theorem bitPos_xor (u v : Word64) (i : Nat) : bitPos (u ^^^ v) i = (bitPos u i ^^ bitPos v i) := BitVec.getLsbD_xor

/-- A combination is linear in the word that selects. -/
theorem xorWhereSet_xor (c : Nat → Word64) (n : Nat) (u v : Word64) :
    xorWhereSet c n (u ^^^ v) = xorWhereSet c n u ^^^ xorWhereSet c n v := by
  induction n with
  | zero => exact BitVec.xor_self.symm
  | succ n ih =>
    have term : (if bitPos (u ^^^ v) n then c n else 0#64) =
        (if bitPos u n then c n else 0#64) ^^^ if bitPos v n then c n else 0#64 := by
      rw [bitPos_xor]
      cases bitPos u n <;> cases bitPos v n <;> simp
    rw [xorWhereSet_succ, xorWhereSet_succ, xorWhereSet_succ, ih, term]
    ac_rfl

theorem xorWhereSet_congr {c d : Nat → Word64} {n : Nat} (h : ∀ i < n, c i = d i) (w : Word64) :
    xorWhereSet c n w = xorWhereSet d n w := by
  induction n with
  | zero => rfl
  | succ n ih =>
    rw [xorWhereSet_succ, xorWhereSet_succ, ih fun i hi => h i (Nat.lt_succ_of_lt hi), h n (Nat.lt_succ_self n)]

/-- The unit word of a set bit position contributes that bit. -/
theorem getLsbD_selected_unit (w : Word64) (n k : Nat) :
    (if bitPos w n then BitVec.twoPow 64 (63 - n) else 0#64).getLsbD k = (decide (k = 63 - n) && w.getLsbD k) := by
  by_cases e : k = 63 - n
  · have bit : w.getLsbD k = bitPos w n := congrArg w.getLsbD e
    rw [bit]
    cases bitPos w n <;> simp [e, show 63 - n < 64 by omega]
  · cases bitPos w n <;> simp [BitVec.getLsbD_twoPow, e, Ne.symm e]

/-- The bits of a combination of the unit words: those of `w` down to the last position combined. -/
theorem getLsbD_xorWhereSet_unit (w : Word64) {n : Nat} (hn : n ≤ 64) {k : Nat} (hk : k < 64) :
    (xorWhereSet (fun i => BitVec.twoPow 64 (63 - i)) n w).getLsbD k = (decide (64 ≤ k + n) && w.getLsbD k) := by
  induction n with
  | zero => simp [xorWhereSet_zero, hk]
  | succ n ih =>
    have reached : (decide (64 ≤ k + n) ^^ decide (k = 63 - n)) = decide (64 ≤ k + (n + 1)) := by
      by_cases e : k = 63 - n
      · rw [decide_eq_false (by omega), decide_eq_true e, decide_eq_true (by omega), Bool.false_xor]
      · rw [decide_eq_false e, Bool.xor_false, decide_eq_decide]
        omega
    rw [xorWhereSet_succ, BitVec.getLsbD_xor, ih (by omega), getLsbD_selected_unit, ← Bool.and_xor_distrib_right, reached]

/-- A word is the combination of the unit words at its set bit positions. -/
theorem xorWhereSet_unit (w : Word64) : xorWhereSet (fun i => BitVec.twoPow 64 (63 - i)) 64 w = w :=
  BitVec.eq_of_getLsbD_eq fun k hk => by simp [getLsbD_xorWhereSet_unit w le_rfl hk]

/-! ### The matrix `A` -/

/-- `l64` is linear (R123). -/
theorem lin64_xor (u v : Word64) : lin64 (u ^^^ v) = lin64 u ^^^ lin64 v := by
  simp only [lin64_eq_xorWhereSet, xorWhereSet_xor]

theorem lin64_zero : lin64 0#64 = 0#64 := by
  simpa using lin64_xor 0#64 0#64

/-- `l64` maps a combination of words to the combination of their images. -/
theorem lin64_xorWhereSet (c : Nat → Word64) (n : Nat) (w : Word64) :
    lin64 (xorWhereSet c n w) = xorWhereSet (fun i => lin64 (c i)) n w := by
  induction n with
  | zero => exact lin64_zero
  | succ n ih => rw [xorWhereSet_succ, xorWhereSet_succ, lin64_xor, ih, apply_ite lin64, lin64_zero]

/-- The rows of the inverse of the matrix `A` over GF(2), four to a line as in the table of R103. -/
def invARow : Nat → BitVec 256
  | 0 => 0x62ab88cd0972e917_31db44e88a39fa85_96e3227445927dcc_4bff113aac49b066#256
  | 1 => 0xabf1861d56aa5833_dbf643802b552c97_e37baf409ba416c5_ffb3d920c3520bec#256
  | 2 => 0x37ac80ec39310f5c_955640769296892e_c42b203b494bca17_629b1093aaab6585#256
  | 3 => 0x31c308c755dbbccc_96ef04eda4e35e66_4bf902f852ff2f33_abf2017c29f19997#256
  | 4 => 0x7ba7f6d2966a717c_b3dd7b694b35b63e_d7e0b3baab945b1f_e570d75ddb4aa381#256
  | 5 => 0xfc38e5a0e325dfce_7e1cfc50ff9ce167_3f0e7e28f14efebd_91073f14f6277fd0#256
  | 6 => 0x8f75c66271c4c510_c9b46331b662ec08_ea5abf965b317604_752dd14ba3963b02#256
  | 7 => 0xb498e6abdf4b9301_5a4c73dbe1abc78e_2d26b7e3fedbed47_9813d5ff7fe3f8ad#256
  | 8 => 0xa27784688a48d4ef_51b5423445246af9_a6d4211aac1235f2_536a9e0d56099479#256
  | 9 => 0xa7354f882b8a4ab2_dd94a9449b452559_e04ada22c3ac9ca2_70256d11ef564e51#256
  | 10 => 0x38d6992f43439caa_1c6bc299afaf4e55_0ebb61c2d9d927a4_07d3be61e2e29d52#256
  | 11 => 0x8de75fbe7171c029_c8fda15fb6b6609a_64f0dea15b5b304d_32786fdea3a318a8#256
  | 12 => 0x7388fc7df56416b6_b7447eb0f4320b5b_d5223f587a198ba3_e411912c3d82cbdf#256
  | 13 => 0x7286c6169041ebe1_3943630b48aefbfe_92afbf8b2457f37f_49d9d1cb12a5f7b1#256
  | 14 => 0x321902ad3c69a5e9_198201d81ebadcfa_82418e6c0f5d6e7d_41ae473689a037b0#256
  | _ => 0xae57ad1bca509558_57a5d8836528c42c_a5dc6ccfbc146216_dc6e36e95e0a310b#256

/-- The row of the inverse of the matrix `A` for bit position `i`. -/
def invA (i : Nat) : Word64 := (invARow (i / 4)).extractLsb' (64 * (3 - i % 4)) 64

/-- `l64` takes the rows of the inverse matrix to the unit words. -/
theorem lin64_invA : ∀ i < 64, lin64 (invA i) = BitVec.twoPow 64 (63 - i) := by
  decide +kernel

/-- Combining the rows of the inverse matrix undoes `l64`. -/
theorem lin64_xorWhereSet_invA (w : Word64) : lin64 (xorWhereSet invA 64 w) = w :=
  calc lin64 (xorWhereSet invA 64 w)
    _ = xorWhereSet (fun i => lin64 (invA i)) 64 w := lin64_xorWhereSet invA 64 w
    _ = xorWhereSet (fun i => BitVec.twoPow 64 (63 - i)) 64 w := xorWhereSet_congr lin64_invA w
    _ = w := xorWhereSet_unit w

/-- The map of the matrix `A` is a bijection: it reaches every word (R109 (c)). -/
theorem lin64_bijective : Function.Bijective lin64 :=
  Finite.surjective_iff_bijective.1 fun w => ⟨xorWhereSet invA 64 w, lin64_xorWhereSet_invA w⟩

/-- `L` is a bijection, lane by lane (R109 (c)). -/
theorem lin512_bijective : Function.Bijective lin512 := by
  refine Finite.injective_iff_bijective.1 fun a b h => eq_of_laneOf fun k hk => lin64_bijective.injective ?_
  rw [← laneOf_lin512 a hk, ← laneOf_lin512 b hk, h]

/-! ### The round constants and the fixed words -/

/-- The twelve round constants are distinct (R109 (d)). -/
theorem romC_injective : Function.Injective romC := by
  have distinct : ∀ q r, romC q = romC r → q = r := by decide +kernel
  exact fun q r => distinct q r

/-- No round constant is zero (R109 (d)). -/
theorem romC_ne_zero : ∀ r, romC r ≠ 0#512 := by
  decide +kernel

/-- Settles O42: the four parts of R109. -/
theorem romProperties : Obligations.RomProperties :=
  ⟨romSbox_bijective, sub512_bijective, fun _ hj => ⟨romTau_lt hj, romTau_romTau hj⟩, perm512_perm512, lin64_bijective,
    lin512_bijective, romC_injective, romC_ne_zero⟩

/-- Settles O43: the words built from bytes have those bytes, and `ROM.INC512` is `vec(512)`. -/
theorem romWords : Obligations.RomWords := by
  refine ⟨rfl, fun i => byteOf_ofBytes _ i, ?inc, fun i => byteOf_ofBytes _ i, BitVec.toNat_zero⟩
  case inc => rw [romInc512_eq, toNat_vec Nat.lt_two_pow_self]

end Sys2Proof.Proofs
end

section
/-! PROOFS. The block transform datapath `X`, `S`, `P`, `L`, `ADD512` (spec/41_block_transform.md R120 to R125). -/

namespace Sys2Proof.Proofs

open Sys2Proof.Machine Sys2Proof.Laws

/-! ### `X` (R120) -/

/-- Settles O17: byte by byte, and on the numbers, `X` is the exclusive or; its laws are those of `^^^`. -/
theorem xorIsBytewise : Obligations.XorIsBytewise := by
  refine ⟨rfl, fun s => ⟨_, rfl, fun i _ => byteOf_xor512 _ _ i, BitVec.toNat_xor _ _⟩, fun _ => BitVec.xor_self,
    fun _ => BitVec.xor_zero, BitVec.xor_comm, BitVec.xor_assoc, ?pattern⟩
  case pattern =>
    refine eq_of_byteOf fun i hi => ?_
    rw [byteOf_xor512, byteOf_ofBytes _ i hi, byteOf_ofBytes _ i hi, byteOf_ofBytes _ i hi]
    split
    · rfl
    · rfl

/-! ### `S` (R121) -/

theorem byteOf_romZero512 (i : Nat) : byteOf romZero512 i = 0x00#8 := BitVec.extractLsb'_zero

/-- `S` treats every byte alike, so it commutes with moving the bytes (R121). -/
theorem sub512_perm512 (a : Vec512) : sub512 (perm512 a) = perm512 (sub512 a) :=
  eq_of_byteOf fun j hj => by
    rw [byteOf_sub512 _ hj, byteOf_perm512 _ hj, byteOf_perm512 _ hj, byteOf_sub512 _ (romTau_lt hj)]

/-- Settles O18: the box on every byte; bijective with the box, and commuting with `P`. -/
theorem substitutionOnEveryByte : Obligations.SubstitutionOnEveryByte := by
  refine ⟨rfl, fun s => ⟨_, rfl, fun _ => byteOf_sub512 _⟩, ?zero, ?iv256, sub512_bijective, sub512_perm512, ?blockExample⟩
  case zero =>
    intro i hi
    rw [byteOf_sub512 _ hi, byteOf_romZero512]
    rfl
  case iv256 =>
    intro i hi
    rw [byteOf_sub512 _ hi, romIV, byteOf_ofBytes _ i hi]
    rfl
  case blockExample => decide +kernel

/-! ### `P` (R122) -/

/-- `TAU` reads the same from either end of the vector, so `P` does not depend on which byte has index 0 (R122). -/
theorem romTau_reverse {j : Nat} (h : j < 64) : romTau (63 - j) = 63 - romTau j := by
  unfold romTau
  omega

/-- `TAU` exchanges row and column of the 8 by 8 byte matrix (R102, R122). -/
theorem romTau_row_column (k : Nat) {l : Nat} (hl : l < 8) : romTau (8 * k + l) = 8 * l + k := by
  unfold romTau
  omega

/-- `P` keeps a vector of equal bytes (R122). -/
theorem perm512_constant (b : Byte) : perm512 (ofBytes fun _ => b) = ofBytes fun _ => b :=
  eq_of_byteOf fun j hj => by
    rw [byteOf_perm512 _ hj, byteOf_ofBytes _ _ (romTau_lt hj), byteOf_ofBytes _ j hj]

/-- Settles O19: the bytes of `P` are those at `TAU`, an involution that exchanges row and column. -/
theorem permutationIsTranspose : Obligations.PermutationIsTranspose := by
  refine ⟨rfl, fun s => ⟨_, rfl, fun _ => byteOf_perm512 _, ?inverse⟩, fun _ => romTau_reverse, perm512_perm512,
    perm512_constant, ?transpose, ?blockExample⟩
  case inverse =>
    intro j hj
    rw [byteOf_perm512 _ (romTau_lt hj), romTau_romTau hj]
  case transpose =>
    intro a k hk l hl
    rw [byteOf_perm512 a (by omega), romTau_row_column k hl]
  case blockExample => decide +kernel

/-! ### `L` (R123) -/

/-- `l64` takes the unit word of a bit position to the coefficient of that position (R123). -/
theorem lin64_unit : ∀ i < 64, lin64 (BitVec.twoPow 64 (63 - i)) = romA i := by
  decide +kernel

/-- `L` is linear, lane by lane (R123). -/
theorem lin512_xor512 (a b : Vec512) : lin512 (xor512 a b) = xor512 (lin512 a) (lin512 b) :=
  eq_of_laneOf fun k hk => by
    simp only [xor512, laneOf_lin512 _ hk, laneOf_xor, lin64_xor]

theorem lin512_romZero512 : lin512 romZero512 = romZero512 := by
  simpa [xor512, romZero512] using lin512_xor512 romZero512 romZero512

/-- A lane of `L`'s result depends on that lane of the operand only (R123). -/
theorem laneOf_lin512_congr {a b : Vec512} {k : Nat} (hk : k < 8) (h : laneOf a k = laneOf b k) :
    laneOf (lin512 a) k = laneOf (lin512 b) k := by
  rw [laneOf_lin512 a hk, laneOf_lin512 b hk, h]

/-- Settles O20: `l64` on each lane, with `l64` linear and fixed by its 64 unit images. -/
theorem linearDiffusion : Obligations.LinearDiffusion := by
  refine ⟨rfl, fun s => ⟨_, rfl, fun _ => laneOf_lin512 _⟩, lin64_zero, lin64_xor, lin64_unit, ?allOnes,
    lin512_romZero512, lin512_xor512, fun _ _ _ => laneOf_lin512_congr, lin512_bijective, ?wordExample, ?blockExample⟩
  case allOnes => decide +kernel
  case wordExample => decide +kernel
  case blockExample => decide +kernel

/-! ### `ADD512` (R124) -/

/-- Adding above the place `m`: the parts above it, and the carry out of the parts below it. -/
theorem add_div_eq_add_carry {m : Nat} (hm : 0 < m) (a b : Nat) :
    (a + b) / m = a / m + b / m + (a % m + b % m) / m :=
  calc (a + b) / m
    _ = (a % m + b % m + m * (a / m + b / m)) / m := by
      rw [Nat.mul_add, Nat.add_add_add_comm, Nat.mod_add_div, Nat.mod_add_div]
    _ = a / m + b / m + (a % m + b % m) / m := by rw [Nat.add_mul_div_left _ _ hm, Nat.add_comm]

/-- The invariant of R124's loop: after the `n` lowest bytes the carry is that of the numbers they form. -/
theorem addCarry_eq (a b : Vec512) {n : Nat} (h : n ≤ 64) :
    addCarry a b n = (a.toNat % 256 ^ n + b.toNat % 256 ^ n) / 256 ^ n := by
  induction n with
  | zero => simp [addCarry, Nat.mod_one]
  | succ n ih =>
    have place : 63 - (63 - n) = n := by omega
    rw [addCarry, ih (by omega), toNat_byteOf, toNat_byteOf, place, Nat.mod_pow_succ, Nat.mod_pow_succ,
      Nat.add_add_add_comm, ← Nat.mul_add, Nat.pow_succ, ← Nat.div_div_eq_div_mul,
      Nat.add_mul_div_left _ _ (Nat.pow_pos (by decide)), Nat.add_comm]

/-- The bytes of a number do not see the reduction modulo `2^512`. -/
theorem mod_two_pow_512_digit (x : Nat) {n : Nat} (h : n < 64) : x % 2 ^ 512 / 256 ^ n % 256 = x / 256 ^ n % 256 := by
  have places : 2 ^ (8 * 64) = 256 ^ n * 256 ^ (64 - n) := by
    rw [pow_mul_pow_sub 256 h.le, Nat.pow_mul]
  rw [places, Nat.mod_mul_right_div_self, Nat.mod_mod_of_dvd _ (dvd_pow_self 256 (by omega))]

/-- Byte by byte, the sum is what R124's loop computes. -/
theorem byteOf_add512 (a b : Vec512) {i : Nat} (h : i < 64) : byteOf (add512 a b) i = addByte a b i := by
  refine BitVec.eq_of_toNat_eq ?_
  rw [addByte, addCarry_eq a b (by omega), BitVec.toNat_ofNat, toNat_byteOf, toNat_byteOf, toNat_byteOf, toNat_add512,
    mod_two_pow_512_digit _ (by omega), add_div_eq_add_carry (Nat.pow_pos (by decide))]
  show (_ + _ + _) % 256 = (_ % 256 + _ % 256 + _) % 256
  omega

/-- Settles O21: the sum of the numbers, each byte by the loop's carry, and the corner cases. -/
theorem additionModulo : Obligations.AdditionModulo := by
  refine ⟨rfl, fun s => ⟨_, rfl, toNat_add512 _ _, fun _ => byteOf_add512 _ _⟩, BitVec.add_zero, ?wraps, ?doubles,
    ?carriesThrough63, ?carriesOnce, BitVec.add_comm, BitVec.add_assoc⟩
  case wraps => decide +kernel
  case doubles => decide +kernel
  case carriesThrough63 => decide +kernel
  case carriesOnce => decide +kernel

end Sys2Proof.Proofs
end

section
/-! PROOFS. The keyed round function `LPS`, `KEYSTEP`, `ROUND`, `E` (spec/42_keyed_round_function.md R140 to R144). -/

namespace Sys2Proof.Proofs

open Sys2Proof.Machine Sys2Proof.Laws

/-! ### `LPS` (R140) -/

theorem lps_bijective : Function.Bijective lps :=
  lin512_bijective.comp ((Function.Involutive.bijective perm512_perm512).comp sub512_bijective)

/-- `S` and `P` commute, so `LPS` may apply them in either order (R140). -/
theorem lps_eq_lin512_sub512_perm512 (a : Vec512) : lps a = lin512 (sub512 (perm512 a)) :=
  congrArg lin512 (sub512_perm512 a).symm

theorem laneOf_lps_romZero512 : ∀ k < 8, laneOf (lps romZero512) k = 0xb383fc2eced4a574#64 := by
  decide +kernel

/-- Settles O22: `LPS` composes three bijections of which the first two commute, and its image of zero has nonzero lanes. -/
theorem substitutePermuteDiffuse : Obligations.SubstitutePermuteDiffuse := by
  refine ⟨rfl, fun _ => rfl, lps_bijective, lps_eq_lin512_sub512_perm512, ?zero, laneOf_lps_romZero512, ?blockExample⟩
  case zero =>
    intro h
    have lane := laneOf_lps_romZero512 0 (by decide)
    rw [h] at lane
    exact absurd lane (by decide +kernel)
  case blockExample => decide +kernel

/-! ### `KEYSTEP` and `ROUND` (R141, R142) -/

/-- Settles O23: `ROUND` closes with the key that `KEYSTEP` answers. -/
theorem keyStepAndRound : Obligations.KeyStepAndRound := by
  refine ⟨rfl, rfl, fun _ => rfl, ?keyExample, ?round⟩
  case keyExample => decide +kernel
  case round =>
    rintro s kn rfl
    show execRound s = _
    rw [execRound, roundStep_eq]
    rfl

/-! ### `E` (R143, R144) -/

/-- After the first `n` rounds the working pair is the cipher state `T n` and the round key `K (n + 1)` (R143). -/
theorem foldl_roundStep_take {K T : Nat → Vec512}
    (rounds : ∀ r : Fin 12, K (r.val + 2) = lps (K (r.val + 1) ^^^ romC r) ∧
      T (r.val + 1) = lps (T r.val) ^^^ K (r.val + 2)) {n : Nat} (hn : n ≤ 12) :
    ((List.finRange 12).take n).foldl roundStep (T 0, K 1) = (T n, K (n + 1)) := by
  induction n with
  | zero => rfl
  | succ n ih =>
    obtain ⟨key, text⟩ := rounds ⟨n, hn⟩
    rw [← List.take_concat_get' _ n (by simpa using hn), List.foldl_append, ih (Nat.le_of_succ_le hn),
      List.getElem_finRange, List.foldl_cons, List.foldl_nil, roundStep_eq, text, key]
    rfl

/-- Twelve rounds from the whitened block: the result is `T 12`, and `K 13` is left as the key (R143, R144). -/
theorem cipher_eq_of_rounds {K T : Nat → Vec512} {k1 m : Vec512} (hK : K 1 = k1) (hT : T 0 = m ^^^ k1)
    (rounds : ∀ r : Fin 12, K (r.val + 2) = lps (K (r.val + 1) ^^^ romC r) ∧
      T (r.val + 1) = lps (T r.val) ^^^ K (r.val + 2)) :
    cipher k1 m = (T 12, K 13) := by
  rw [← foldl_roundStep_take rounds le_rfl, hT, hK]
  rfl

/-- Whitening with a fixed vector undoes itself. -/
theorem xor512_right_bijective (k : Vec512) : Function.Bijective (xor512 · k) :=
  Function.Involutive.bijective fun t => by rw [xor512, xor512, BitVec.xor_assoc, BitVec.xor_self, BitVec.xor_zero]

/-- The round keys do not depend on the block, so for a fixed key every round is a bijection of the cipher state. -/
theorem foldl_roundStep_bijective (rs : List (Fin 12)) (k : Vec512) :
    Function.Bijective fun t => (rs.foldl roundStep (t, k)).1 := by
  induction rs generalizing k with
  | nil => exact Function.bijective_id
  | cons r rs ih => exact (ih (keyStep k r)).comp ((xor512_right_bijective (keyStep k r)).comp lps_bijective)

/-- Settles O24: the twelve rounds by induction over the rounds done, and each of them undone for a fixed key. -/
theorem cipherTwelveRounds : Obligations.CipherTwelveRounds := by
  refine ⟨rfl, ?rounds, fun k1 => (foldl_roundStep_bijective _ k1).comp (xor512_right_bijective k1)⟩
  case rounds =>
    intro s K T hK hT rounds
    show execE s = _
    rw [execE, cipher_eq_of_rounds hK hT rounds]
    rfl

end Sys2Proof.Proofs
end

section
/-! PROOFS. The compression function `G` (spec/43_compression.md R150). -/

namespace Sys2Proof.Proofs

open Sys2Proof.Machine Sys2Proof.Laws

/-- Settles O25: `G` leaves in `T` and `K` what `E` leaves there under the key `LPS(X(h, n))`, and closes with `h` and `m`. -/
theorem compressionFunction : Obligations.CompressionFunction := by
  refine ⟨rfl, ?compression⟩
  case compression =>
    rintro s _ t k rfl work
    show execG s = _
    rw [execG, compress_eq, compressWork_eq, ← work]
    rfl

end Sys2Proof.Proofs
end

section
/-! PROOFS. The byte-order operations at the boundary: `INGEST`, `PAD`, `REV512`, `TRUNC256`
(spec/44_scheduler_finalizer.md R161, R162, R169, R170). -/

namespace Sys2Proof.Proofs

open Sys2Proof.Machine Sys2Proof.Laws

/-! ### Numbers, least significant byte first -/

/-- A running sum over `0 .. n - 1` is the sum. -/
theorem foldl_add_range (f : Nat → Nat) (c n : Nat) :
    (List.range n).foldl (fun acc i => acc + f i) c = c + ∑ i ∈ Finset.range n, f i := by
  induction n with
  | zero => rfl
  | succ n ih =>
    rw [List.range_succ, List.foldl_append, ih, List.foldl_cons, List.foldl_nil, Finset.sum_range_succ, Nat.add_assoc]

/-- `int(v)` summed from its least significant byte `v[63]` on (R6). -/
theorem toNat_eq_sum_low_bytes (v : Vec512) :
    v.toNat = ∑ i ∈ Finset.range 64, (byteOf v (63 - i)).toNat * 256 ^ i := by
  rw [toNat_eq_weighted_bytes, foldl_add_range, Nat.zero_add, ← Finset.sum_range_reflect]
  refine Finset.sum_congr rfl fun i hi => ?_
  have place : 63 - (64 - 1 - i) = i := by
    have := Finset.mem_range.1 hi
    omega
  rw [place]

/-- The bytes on the datapath's byte input, by their places (R161, R162). -/
theorem getD_toList (b : Vector Byte 64) {i : Nat} (hi : i < 64) : b.toList.getD i 0#8 = b[i] := by
  rw [List.getD_eq_getElem?_getD, Vector.getElem?_toList, Vector.getElem?_eq_getElem hi, Option.getD_some]

/-! ### `INGEST` (R161) -/

/-- Byte `63 - i` of an ingested block is byte `i` of the message. -/
theorem byteOf_ingest_low (b : List Byte) {i : Nat} (hi : i < 64) : byteOf (ingest b) (63 - i) = b.getD i 0#8 := by
  have place : 63 - (63 - i) = i := by omega
  rw [byteOf_ingest b (by omega), place]

/-- The first message byte is the least significant one of the block's number. -/
theorem toNat_ingest (b : List Byte) :
    (ingest b).toNat = ∑ i ∈ Finset.range 64, (b.getD i 0#8).toNat * 256 ^ i := by
  rw [toNat_eq_sum_low_bytes]
  exact Finset.sum_congr rfl fun i hi => by rw [byteOf_ingest_low b (Finset.mem_range.1 hi)]

/-- Settles O26: byte by byte and as a number `INGEST` reverses, so doing it twice gives the bytes back. -/
theorem ingestReverses : Obligations.IngestReverses := by
  refine ⟨rfl, fun s => ⟨_, rfl, fun i => ?byte, ?number⟩, fun b => eq_of_byteOf fun i hi => ?twice, ingest_rev512⟩
  case byte =>
    rw [byteOf_ingest _ i.isLt, blockOperand, getD_toList]
  case number => rw [foldl_add_range, Nat.zero_add, toNat_ingest, blockOperand]
  case twice =>
    have hlow : 63 - i < 64 := by omega
    have reversed : ((List.range 64).map (byteOf (ingest b.toList))).getD (63 - i) 0#8 =
        byteOf (ingest b.toList) (63 - i) := by simp [hlow]
    rw [byteOf_ingest _ hi, reversed, byteOf_ingest_low _ hi, byteOf_ofBytes _ i hi]

/-! ### `PAD` (R162) -/

section Pad

variable {b : List Byte} (hb : b.length < 64)
include hb

/-- The tail stands reversed at the low end (R162). -/
theorem byteOf_pad_low {i : Nat} (hi : i < b.length) : byteOf (pad b) (63 - i) = b.getD i 0#8 := by
  have place : 63 - (63 - i) = i := by omega
  rw [byteOf_pad b (by omega), if_neg (by omega), place, if_pos hi]

/-- The terminator stands directly above the tail (R162). -/
theorem byteOf_pad_terminator : byteOf (pad b) (63 - b.length) = 0x01#8 := by
  rw [byteOf_pad b (by omega), if_pos rfl]

/-- Above the terminator every byte is zero (R162). -/
theorem byteOf_pad_above {i : Nat} (hi : i < 63 - b.length) : byteOf (pad b) i = 0x00#8 := by
  rw [byteOf_pad b (by omega), if_neg (by omega), if_neg (by omega)]

end Pad

/-- The padded tail as a number: the tail, and the terminator one place above it. -/
theorem toNat_pad {b : List Byte} (hb : b.length < 64) :
    (pad b).toNat = 256 ^ b.length + ∑ i ∈ Finset.range b.length, (b.getD i 0#8).toNat * 256 ^ i := by
  have above : ∀ i ∈ Finset.range 64, i ∉ Finset.range (b.length + 1) → (byteOf (pad b) (63 - i)).toNat * 256 ^ i = 0 := by
    intro i hi hni
    have zero : byteOf (pad b) (63 - i) = 0x00#8 := by
      rw [Finset.mem_range] at hi hni
      exact byteOf_pad_above hb (by omega)
    rw [zero]
    exact Nat.zero_mul _
  have terminator : (byteOf (pad b) (63 - b.length)).toNat * 256 ^ b.length = 256 ^ b.length := by
    rw [byteOf_pad_terminator hb]
    exact Nat.one_mul _
  rw [toNat_eq_sum_low_bytes, ← Finset.sum_subset (Finset.range_subset_range.2 hb) above, Finset.sum_range_succ,
    terminator, Nat.add_comm]
  refine congrArg _ (Finset.sum_congr rfl fun i hi => ?_)
  rw [byteOf_pad_low hb (Finset.mem_range.1 hi)]

/-- The bytes of `PAD`'s operand are as many as its count input says. -/
theorem length_tailOperand (s : State) : (tailOperand s).length = s.dp.count.val := by
  simp [tailOperand, s.dp.count.isLt.le]

/-- The bytes of `PAD`'s operand are the first ones of the byte input. -/
theorem getD_tailOperand (s : State) {i : Nat} (hi : i < s.dp.count.val) :
    (tailOperand s).getD i 0#8 = s.dp.bytes.toList.getD i 0#8 := by
  rw [tailOperand, List.getD_eq_getElem?_getD, List.getElem?_take_of_lt hi, ← List.getD_eq_getElem?_getD]

/-- Settles O27: the tail, the terminator and the zeros by their places, and the number they form. -/
theorem padPlacesTheTerminator : Obligations.PadPlacesTheTerminator := by
  refine ⟨rfl, fun s => ?_, ?empty⟩
  case empty =>
    refine BitVec.eq_of_toNat_eq ?_
    rw [toNat_pad (by decide), toNat_vec (Nat.one_lt_two_pow (by decide))]
    rfl
  have len := length_tailOperand s
  have short : (tailOperand s).length < 64 := len.trans_lt s.dp.count.isLt
  refine ⟨pad (tailOperand s), rfl, fun i hi => ?low, ?terminator, fun i hi => ?above, ?number⟩
  case low =>
    rw [byteOf_pad_low short (len.symm ▸ hi), getD_tailOperand s hi, getD_toList _ i.isLt]
    rfl
  case terminator =>
    rw [← len]
    exact byteOf_pad_terminator short
  case above => exact byteOf_pad_above short (len.symm ▸ hi)
  case number =>
    rw [foldl_add_range, toNat_pad short, len]
    refine congrArg _ (Finset.sum_congr rfl fun i hi => ?_)
    rw [getD_tailOperand s (Finset.mem_range.1 hi)]

/-! ### `REV512` and `TRUNC256` (R169, R170) -/

/-- The first `n` bytes, read most significant first, are the number without its other bytes. -/
theorem foldl_leading_bytes (v : Vec512) {n : Nat} (hn : n ≤ 64) :
    ((List.range n).map (byteOf v)).foldl (fun acc b => acc * 256 + b.toNat) 0 = v.toNat / 256 ^ (64 - n) := by
  induction n with
  | zero => exact (Nat.div_eq_of_lt (v.isLt.trans_eq (Nat.pow_mul 2 8 64))).symm
  | succ n ih =>
    have left : 64 - n = 63 - n + 1 := by omega
    have left' : 64 - (n + 1) = 63 - n := by omega
    rw [List.range_succ, List.map_append, List.foldl_append, ih (Nat.le_of_succ_le hn), List.map_singleton,
      List.foldl_cons, List.foldl_nil, toNat_byteOf, left, left', Nat.pow_succ, ← Nat.div_div_eq_div_mul,
      Nat.div_add_mod']

/-- The truncated digest is the first 32 bytes in their order. -/
theorem toList_trunc256 (h : Vec512) : (trunc256 h).toList = (List.range 32).map (byteOf h) :=
  List.ext_getElem (by simp) fun j _ _ => by simp [trunc256]

/-- Settles O28: the lanes of both forms, and the number the leading half is. -/
theorem digestForms : Obligations.DigestForms := by
  refine ⟨rfl, rfl, fun s => ⟨_, rfl, Vector.length_toList, fun j hj => ?reversed, ingest_rev512 _⟩,
    fun s => ⟨_, rfl, Vector.length_toList, fun j hj => ?truncated, ?number⟩⟩
  case reversed => rw [Vector.getElem?_toList, Vector.getElem?_eq_getElem hj, getElem_rev512]
  case truncated => rw [Vector.getElem?_toList, Vector.getElem?_eq_getElem hj, getElem_trunc256]
  case number =>
    rw [toList_trunc256, foldl_leading_bytes _ (by decide)]
    rfl

end Sys2Proof.Proofs
end

section
/-! PROOFS. The controller's stages and the changes of `PHASE` (spec/44_scheduler_finalizer.md R160, R163 to R168, R172). -/

namespace Sys2Proof.Proofs

open Sys2Proof.Machine Sys2Proof.Laws

/-! ### The stage each phase selects -/

/-- The stage that `PHASE` and the remaining length decode to is the controller's stage effect (R85, R163). -/
theorem exec_of_decodeStage {s : State} {i : Instr} (h : decodeStage (phaseCode s.phase) (fullBlockDue s) = .ok i) :
    exec i s = .next (stageEffect s) :=
  (controllerStep_of_decode h).symm.trans (controllerStep_eq s)

section PhaseStages

variable {s : State}

theorem decodeStage_full (hp : s.phase = .absorb) (hd : 64 ≤ remaining s) :
    decodeStage (phaseCode s.phase) (fullBlockDue s) = .ok .full := by
  rw [hp, (fullBlockDue_iff s).2 hd]
  rfl

theorem decodeStage_tail (hp : s.phase = .absorb) (hd : remaining s < 64) :
    decodeStage (phaseCode s.phase) (fullBlockDue s) = .ok .tail := by
  rw [hp, show fullBlockDue s = false from decide_eq_false (Nat.not_le.2 hd)]
  rfl

theorem stageEffect_init (hp : s.phase = .init) : stageEffect s = initStage s := by
  rw [stageEffect, hp]

theorem stageEffect_full (hp : s.phase = .absorb) (hd : 64 ≤ remaining s) : stageEffect s = fullStage s := by
  rw [stageEffect, hp]
  exact if_pos ((fullBlockDue_iff s).2 hd)

theorem stageEffect_tail (hp : s.phase = .absorb) (hd : remaining s < 64) : stageEffect s = tailStage s := by
  rw [stageEffect, hp]
  exact if_neg fun due => Nat.not_le.2 hd ((fullBlockDue_iff s).1 due)

theorem stageEffect_finN (hp : s.phase = .finN) : stageEffect s = finNStage s := by
  rw [stageEffect, hp]

theorem stageEffect_finS (hp : s.phase = .finS) : stageEffect s = finSStage s := by
  rw [stageEffect, hp]

theorem stageEffect_out (hp : s.phase = .out) : stageEffect s = outStage s := by
  rw [stageEffect, hp]

/-- `FULL` over a block the memory supplies, as one record update (R164). -/
theorem fullStage_of_memRead {b : List Byte} (h : memRead s.msg s.pos.toNat 64 = some b) :
    fullStage s = { s with
      m := ingest b
      h := compress s.h s.n (ingest b)
      t := (compressWork s.h s.n (ingest b)).1
      k := (compressWork s.h s.n (ingest b)).2
      n := add512 s.n romInc512
      sigma := add512 s.sigma (ingest b)
      pos := s.pos + 64#64
      phase := .absorb } := by
  rw [fullStage, h]
  exact enterPhase_writeBlock ..

/-- `TAIL` over a tail the memory supplies, as one record update (R165). -/
theorem tailStage_of_memRead {b : List Byte} (h : memRead s.msg s.pos.toNat (remaining s) = some b) :
    tailStage s = { s with
      m := pad b
      h := compress s.h s.n (pad b)
      t := (compressWork s.h s.n (pad b)).1
      k := (compressWork s.h s.n (pad b)).2
      n := add512 s.n (vec (8 * remaining s))
      sigma := add512 s.sigma (pad b)
      pos := s.pos + BitVec.ofNat 64 (remaining s)
      phase := .finN } := by
  rw [tailStage, h]
  exact enterPhase_writeBlock ..

/-- What remains after `POS` ends at `LEN` (R163). -/
theorem pos_add_remaining (h : s.pos.toNat ≤ s.len.toNat) : s.pos + BitVec.ofNat 64 (remaining s) = s.len := by
  have sum : s.pos.toNat + remaining s = s.len.toNat := Nat.add_sub_cancel' h
  apply BitVec.eq_of_toNat_eq
  rw [BitVec.toNat_add, BitVec.toNat_ofNat, Nat.add_mod_mod, sum, Nat.mod_eq_of_lt s.len.isLt]

end PhaseStages

/-- Settles O6: on the controller's turn the step is the stage that the remaining length decodes to. -/
theorem absorbDispatchesByRemainingLength : Obligations.AbsorbDispatchesByRemainingLength := by
  intro s hsel hh hp _
  have turn : step s = controllerStep s := by rw [step_eq_hostStep hsel, hostStep, hh]
  exact ⟨fun hd => turn.trans (controllerStep_of_decode (decodeStage_full hp hd)),
    fun hd => turn.trans (controllerStep_of_decode (decodeStage_tail hp hd))⟩

/-! ### The stages by themselves -/

/-- Settles O29: the chaining value is the ROM's for the configured width. -/
theorem initLoadsTheChainingValue : Obligations.InitLoadsTheChainingValue := by
  refine ⟨rfl, fun s hp => ?_⟩
  have run : exec .init s = .next (initStage s) :=
    stageEffect_init hp ▸ exec_of_decodeStage (by rw [hp]; rfl)
  rw [run, initStage]
  refine ⟨fun hc => ?_, fun hc => ?_⟩
  · rw [hc]
    rfl
  · rw [hc]
    rfl

/-- The bytes that the memory supplies one by one are what `MemRead` answers (R56). -/
theorem memRead_eq_map_range {m : Memory} {a n : Nat} {b : Nat → Byte} (h : ∀ i < n, m.byteAt (a + i) = some (b i)) :
    memRead m a n = some ((List.range n).map b) :=
  memRead_eq_some.2 ⟨by simp, fun i hi => by simp [h i hi, hi]⟩

/-- Settles O30: the block read is reversed by `INGEST`, compressed, counted and summed. -/
theorem fullAbsorbsABlock : Obligations.FullAbsorbsABlock := by
  refine ⟨rfl, fun s b hp hd hb => ⟨ingest ((List.range 64).map b), fun i hi => ?_, ?_⟩⟩
  · have hlow : 63 - i < 64 := by omega
    rw [byteOf_ingest _ hi]
    simp [hlow]
  · rw [exec_of_decodeStage (decodeStage_full hp hd), stageEffect_full hp hd,
      fullStage_of_memRead (memRead_eq_map_range hb), compressWork_eq, romInc512_eq, ← hp]
    rfl

/-- Settles O31: the tail read is padded, compressed under the old counter, counted by its own length and summed. -/
theorem tailAbsorbsThePaddedTail : Obligations.TailAbsorbsThePaddedTail := by
  refine ⟨rfl, ?_⟩
  rintro s b _ hp hle rfl hd hb
  have len : ((List.range (remaining s)).map b).length = remaining s := by simp
  have short : ((List.range (remaining s)).map b).length < 64 := len.trans_lt hd
  refine ⟨pad ((List.range (remaining s)).map b), fun i hi => ?low, ?terminator, fun i hi => ?above, ?next⟩
  case low =>
    have hi' : i < remaining s := hi
    rw [byteOf_pad_low short (len.symm ▸ hi)]
    simp [hi']
  case terminator =>
    have h := byteOf_pad_terminator short
    rwa [len] at h
  case above => exact byteOf_pad_above short (len.symm ▸ hi)
  case next =>
    rw [exec_of_decodeStage (decodeStage_tail hp hd), stageEffect_tail hp hd,
      tailStage_of_memRead (memRead_eq_map_range hb), compressWork_eq, pos_add_remaining hle]
    rfl

/-- Settles O32: both compressions take the zero counter, the first the bit count and the second the checksum. -/
theorem finalizationCompressions : Obligations.FinalizationCompressions := by
  refine ⟨rfl, rfl, fun s => ⟨fun hp => ?finN, fun hp => ?finS⟩⟩
  case finN =>
    rw [exec_of_decodeStage (i := .finN) (by rw [hp]; rfl), stageEffect_finN hp, finNStage, compressInto,
      compressWork_eq, enterPhase_writeChaining]
  case finS =>
    rw [exec_of_decodeStage (i := .finS) (by rw [hp]; rfl), stageEffect_finS hp, finSStage, compressInto,
      compressWork_eq, enterPhase_writeChaining]

/-- Settles O33: the digest lanes are those of `REV512` at width 512 and of `TRUNC256` at width 256. -/
theorem outWritesTheDigest : Obligations.OutWritesTheDigest := by
  refine ⟨rfl, fun s hp => ?_⟩
  have run : exec .out s = .next (outStage s) := stageEffect_out hp ▸ exec_of_decodeStage (by rw [hp]; rfl)
  refine ⟨fun hc => ⟨rev512 s.h, fun j => getElem_rev512 s.h j j.isLt, ?_⟩,
    fun hc => ⟨digest256 s, s.draws + 1, fun j hj => ?_, ?_⟩⟩
  · rw [run, outStage, hc]
  · simp [digest256, hj, getElem_trunc256]
  · rw [run, outStage, hc]

/-- Settles O53: each operand is the register R164 names, and each result is what `FULL` writes. -/
theorem fullIsItsDatapathOperations : Obligations.FullIsItsDatapathOperations := by
  intro s u b hp hd hb hu
  have run : exec .full s = .next (fullStage s) :=
    (exec_of_decodeStage (decodeStage_full hp hd)).trans (congrArg _ (stageEffect_full hp hd))
  cases run.symm.trans hu
  rw [fullStage_of_memRead hb]
  exact ⟨ingest b.toList, compress s.h s.n (ingest b.toList), add512 s.n romInc512, add512 s.sigma (ingest b.toList),
    _, _, _, _, rfl, rfl, rfl, rfl, rfl, rfl, rfl, rfl, rfl, rfl, rfl, rfl, rfl, rfl⟩

/-! ### The changes of `PHASE` -/

/-- The phase after a stage, by the phase that selects it (R172, R202). -/
theorem stageEffect_phase (s : State) :
    (stageEffect s).phase = s.phase ∨
    (s.phase = .init ∧ (stageEffect s).phase = .absorb) ∨
    (s.phase = .absorb ∧ (stageEffect s).phase = .finN ∧ remaining s < 64) ∨
    (s.phase = .absorb ∧ (stageEffect s).phase = .idle ∧ (stageEffect s).errCode = some .invariantViolation) ∨
    (s.phase = .finN ∧ (stageEffect s).phase = .finS) ∨ (s.phase = .finS ∧ (stageEffect s).phase = .out) ∨
    (s.phase = .out ∧ (stageEffect s).phase = .idle ∧ (stageEffect s).done = true) := by
  cases hp : s.phase with
  | idle => exact .inl (by rw [stageEffect_idle hp, hp])
  | init => simp [stageEffect_init hp]
  | absorb =>
    by_cases hd : 64 ≤ remaining s
    · rw [stageEffect_full hp hd]
      obtain ⟨-, e⟩ | ⟨_, _, _, _, _, _, -, -, -, -, -, -, e⟩ := fullStage_cases s <;> simp [e]
    · have hlt : remaining s < 64 := Nat.not_le.1 hd
      rw [stageEffect_tail hp hlt]
      obtain ⟨-, e⟩ | ⟨_, _, _, _, _, _, -, -, -, -, -, -, e⟩ := tailStage_cases s <;> simp [e, hlt]
  | finN =>
    obtain ⟨_, _, -, -, e⟩ := finNStage_cases s
    simp [stageEffect_finN hp, e]
  | finS =>
    obtain ⟨_, _, -, -, e⟩ := finSStage_cases s
    simp [stageEffect_finS hp, e]
  | out =>
    obtain ⟨_, _, e, -⟩ := outStage_cases s
    simp [stageEffect_out hp, e]

/-- An accepted command leaves the core at rest, unless it is a `COMPUTE` of a configured core (R190 to R192, R203). -/
theorem commandEffect_phase (w : CmdWord) {s : State} (hp : s.phase = .idle) :
    (commandEffect w s).phase = .idle ∨
    ((commandEffect w s).phase = .init ∧ s.cfg ≠ none ∧ opField w = 0x02#8 ∧ (commandEffect w s).len = argField w) := by
  obtain ⟨_, -, e⟩ | ⟨_, -, e⟩ | ⟨h2, hc, e⟩ | ⟨-, -, e⟩ := commandEffect_cases w s <;> rw [e]
  · exact .inl rfl
  · exact .inl hp
  · exact .inr ⟨rfl, hc, h2, rfl⟩
  · exact .inl rfl

/-- Settles O48: of all a step can do only reset, an accepted command and a stage change `PHASE`. -/
theorem phaseTransitions : Obligations.PhaseTransitions := by
  intro s u h hne
  obtain ⟨rest, hh, rfl⟩ | ⟨r, t, k, rfl⟩ | ⟨w, rest, -, hh, ha, rfl⟩ | ⟨m, rest, rfl⟩ | ⟨rest, rfl⟩ | ⟨rest, -, rfl⟩ :=
    step_cases h
  · exact .inl ⟨by rw [resetAsserted, hh], rfl⟩
  · exact absurd rfl hne
  · obtain ⟨hp, -⟩ := (accepts_iff s).1 ha
    obtain rested | ⟨hi, hc, h2, hlen⟩ := commandEffect_phase w (s := withHost rest s) hp
    · exact absurd (rested.trans hp.symm) hne
    · exact .inr (.inl ⟨hp, hi, hc, ha, w, rest, hh, h2, hlen⟩)
  · exact absurd rfl hne
  · exact absurd rfl hne
  · exact .inr (.inr ((stageEffect_phase (withHost rest s)).resolve_left hne))

end Sys2Proof.Proofs
end

section
/-! PROOFS. A computation over a held message yields its digest (spec/44_scheduler_finalizer.md R172, R173;
spec/45_host_commands.md R191, R192). -/

namespace Sys2Proof.Proofs

open Sys2Proof.Machine Sys2Proof.Laws

/-! ### The two commands -/

/-- The operand of the `CONSTRUCT` that configures a width (R83). -/
def widthOperand : Width → Word64
  | .w256 => 256#64
  | .w512 => 512#64

/-- A width is what its operand configures (R191). -/
theorem constructEffect_widthOperand (w : Width) (s : State) : constructEffect (widthOperand w) s =
    { s with cfg := some w, done := false, errCode := clearConfigError s.errCode } := by
  cases w with
  | w256 => rfl
  | w512 => rfl

/-- An accepted command word takes one step and moves the script on (R190). -/
theorem step_of_accepts {s : State} {w : CmdWord} {rest : List HostAction} (ha : accepts s = true)
    (hsel : s.dp.sel = 0#4) (hh : s.host = .command w :: rest) :
    step s = .next (commandEffect w (withHost rest s)) := by
  have ha' : accepts (withHost rest s) = true := ha
  rw [step_command hsel w hh, presentCommand_eq, if_pos ha']

/-- An accepted `CONSTRUCT` of a legal width configures it and leaves no error (R191). -/
theorem step_construct {s : State} {w : Width} {rest : List HostAction} (ha : accepts s = true) (hsel : s.dp.sel = 0#4)
    (hh : s.host = .command (commandWord 0x01#8 (widthOperand w)) :: rest) :
    step s = .next { s with cfg := some w, done := false, errCode := none, host := rest } := by
  rw [step_of_accepts ha hsel hh, commandEffect, opField_commandWord, argField_commandWord, if_pos rfl,
    constructEffect_widthOperand, withHost_errCode, clearConfigError_of_accepts ha]
  rfl

/-- An accepted `COMPUTE` starts a computation at a configured core (R192). -/
theorem step_compute {s : State} {w : Width} {len : Word64} {rest : List HostAction} (ha : accepts s = true)
    (hsel : s.dp.sel = 0#4) (hc : s.cfg = some w) (hh : s.host = .command (commandWord 0x02#8 len) :: rest) :
    step s = .next { s with len := len, done := false, phase := .init, host := rest } := by
  have opcode : (0x02#8 : BitVec 8) ≠ 0x01#8 := by decide
  rw [step_of_accepts ha hsel hh, commandEffect, opField_commandWord, argField_commandWord, if_neg opcode, if_pos rfl,
    computeEffect, withHost_cfg, hc]
  rfl

/-- A run goes on from where its first step leads. -/
theorem run_succ_of_step {s u : State} (h : step s = .next u) (k : Nat) :
    Host.Core.run core (k + 1) s = Host.Core.run core k u := by
  have first : core.step s = .next u := h
  simp only [Host.Core.run, first]

/-- The state in which `INIT` is due, after `CONSTRUCT` and `COMPUTE` (R191, R192). -/
def computationStart (w : Width) (len : Word64) (s : State) : State :=
  { s with cfg := some w, errCode := none, len := len, done := false, phase := .init, host := [] }

/-- `CONSTRUCT` and `COMPUTE` to a core that accepts commands start a computation in two steps. -/
theorem run_commands {s : State} {w : Width} {len : Word64} (ha : accepts s = true) (hsel : s.dp.sel = 0#4)
    (hh : s.host = [.command (commandWord 0x01#8 (widthOperand w)), .command (commandWord 0x02#8 len)]) :
    Host.Core.run core 2 s = .next (computationStart w len s) := by
  obtain ⟨hp, -⟩ := (accepts_iff s).1 ha
  refine (run_succ_of_step (step_construct ha hsel hh) 1).trans (run_succ_of_step ?_ 0)
  exact step_compute ((accepts_iff _).2 ⟨hp, .inl rfl⟩) hsel rfl rfl

/-! ### The points of a computation -/

/-- The core computes the digest of `msg` at width `w`: the stage of phase `p` is due, over the chaining value `h`, the bit
count `n` and the checksum `sigma`. -/
structure ComputationAt (w : Width) (msg : List Byte) (p : Phase) (h n sigma : Vec512) (s : State) : Prop where
  cfg : s.cfg = some w
  errCode : s.errCode = none
  len : s.len.toNat = msg.length
  message : holdsMessage s.msg msg
  phase : s.phase = p
  h : s.h = h
  n : s.n = n
  sigma : s.sigma = sigma

/-- The core has absorbed the first `j` full blocks of `msg` (R173). -/
structure Absorbed (w : Width) (msg : List Byte) (j : Nat) (s : State) : Prop extends
    ComputationAt w msg .absorb (hashChain w msg j).1 (vec (512 * j)) (hashChain w msg j).2 s where
  pos : s.pos.toNat = 64 * j

/-- Within a held message the memory reads as the message (R56). -/
theorem memRead_of_holdsMessage {m : Memory} {msg : List Byte} (hm : holdsMessage m msg) {a n : Nat}
    (h : a + n ≤ msg.length) : memRead m a n = some ((msg.drop a).take n) := by
  refine memRead_eq_some.2 ⟨by simp; omega, fun i hi => ?_⟩
  have byte := hm ⟨a + i, by omega⟩
  rw [byte, List.getElem?_take_of_lt hi, List.getElem?_drop, List.getElem?_eq_getElem]
  rfl

section Stages

variable {w : Width} {msg : List Byte} {s : State}

/-- `INIT` makes the state with no block absorbed (R160, R173). -/
theorem absorbed_zero_of_init {h n sigma : Vec512} (hs : ComputationAt w msg .init h n sigma s) :
    Absorbed w msg 0 (stageEffect s) := by
  rw [stageEffect_init hs.phase]
  exact { hs with phase := rfl, h := congrArg initialChaining hs.cfg, n := rfl, sigma := rfl, pos := rfl }

/-- What remains after `j` absorbed blocks (R163). -/
theorem remaining_of_absorbed {j : Nat} (hs : Absorbed w msg j s) : remaining s = msg.length - 64 * j := by
  rw [remaining, hs.len, hs.pos]

/-- `FULL` absorbs the next full block (R164, R173). -/
theorem absorbed_succ {j : Nat} (hj : j < msg.length / 64) (hs : Absorbed w msg j s) :
    Absorbed w msg (j + 1) (stageEffect s) := by
  have within : 64 * j + 64 ≤ msg.length := by omega
  have due : 64 ≤ remaining s := by
    rw [remaining_of_absorbed hs]
    omega
  have block : memRead s.msg s.pos.toNat 64 = some ((msg.drop (64 * j)).take 64) := by
    rw [hs.pos]
    exact memRead_of_holdsMessage hs.message within
  have hpos : (s.pos + 64#64).toNat = 64 * (j + 1) := by
    have hlt := s.len.isLt
    have hlen := hs.len
    have hj' := hs.pos
    rw [BitVec.toNat_add, hj']
    show (64 * j + 64) % 2 ^ 64 = _
    omega
  rw [stageEffect_full hs.phase due, fullStage_of_memRead block]
  refine { hs with phase := rfl, h := ?_, n := ?_, sigma := ?_, pos := hpos }
  · simp only [hs.h, hs.n, hashChain, hashBlock]
  · simp only [hs.n, romInc512_eq, add512_vec, Nat.mul_add]
  · simp only [hs.sigma, hashChain, hashBlock]

/-- Stage by stage, `FULL` absorbs all full blocks. -/
theorem absorbed_iterate {j : Nat} (hj : j ≤ msg.length / 64) (hs : Absorbed w msg 0 s) :
    Absorbed w msg j (stageEffect^[j] s) := by
  induction j with
  | zero => exact hs
  | succ j ih =>
    rw [Function.iterate_succ_apply']
    exact absorbed_succ hj (ih (Nat.le_of_succ_le hj))

/-- `TAIL` absorbs what is left after the full blocks (R165, R173). -/
theorem computationAt_finN (hs : Absorbed w msg (msg.length / 64) s) :
    ComputationAt w msg .finN (hashAbsorbed w msg).1 (vec (8 * msg.length)) (hashAbsorbed w msg).2 (stageEffect s) := by
  have rem : remaining s = msg.length - 64 * (msg.length / 64) := remaining_of_absorbed hs
  have due : remaining s < 64 := by omega
  have bits : 512 * (msg.length / 64) + 8 * remaining s = 8 * msg.length := by omega
  have tail : memRead s.msg s.pos.toNat (remaining s) = some (msg.drop (64 * (msg.length / 64))) := by
    rw [hs.pos, memRead_of_holdsMessage hs.message (by omega), List.take_of_length_le (by simp; omega)]
  rw [stageEffect_tail hs.phase due, tailStage_of_memRead tail]
  refine { hs with phase := rfl, h := ?_, n := ?_, sigma := ?_ }
  · simp only [hs.h, hs.n, hashAbsorbed, hashTail]
  · simp only [hs.n, add512_vec, bits]
  · simp only [hs.sigma, hashAbsorbed, hashTail]

/-- `FIN_N` compresses the bit count (R166). -/
theorem computationAt_finS {h n sigma : Vec512} (hs : ComputationAt w msg .finN h n sigma s) :
    ComputationAt w msg .finS (compress h (vec 0) n) n sigma (stageEffect s) := by
  obtain ⟨h', _, hh, -, e⟩ := finNStage_cases s
  rw [stageEffect_finN hs.phase, e]
  exact { hs with phase := rfl, h := by rw [hh, hs.h, hs.n, romZero512_eq] }

/-- `FIN_S` compresses the checksum (R167). -/
theorem computationAt_out {h n sigma : Vec512} (hs : ComputationAt w msg .finS h n sigma s) :
    ComputationAt w msg .out (compress h (vec 0) sigma) n sigma (stageEffect s) := by
  obtain ⟨h', _, hh, -, e⟩ := finSStage_cases s
  rw [stageEffect_finS hs.phase, e]
  exact { hs with phase := rfl, h := by rw [hh, hs.h, hs.sigma, romZero512_eq] }

/-- After the last full block three more stages make the final chaining value (R173). -/
theorem computationAt_hashFinal (hs : Absorbed w msg (msg.length / 64) s) :
    ComputationAt w msg .out (hashFinal w msg) (vec (8 * msg.length)) (hashAbsorbed w msg).2 (stageEffect^[3] s) :=
  computationAt_out (computationAt_finS (computationAt_finN hs))

/-- From `INIT` on, `LEN div 64 + 4` stages make the final chaining value (R172, R173). -/
theorem computationAt_out_of_init {h n sigma : Vec512} (hs : ComputationAt w msg .init h n sigma s) :
    ComputationAt w msg .out (hashFinal w msg) (vec (8 * msg.length)) (hashAbsorbed w msg).2
      (stageEffect^[msg.length / 64 + 4] s) := by
  have absorbed : Absorbed w msg (msg.length / 64) (stageEffect^[msg.length / 64 + 1] s) :=
    absorbed_iterate le_rfl (absorbed_zero_of_init hs)
  have final := computationAt_hashFinal absorbed
  rwa [← Function.iterate_add_apply, Nat.add_comm 3] at final

/-- `OUT` shows the digest of the final chaining value in the form of the width (R168, R173). -/
theorem outputs_digest_outStage {n sigma : Vec512} (hs : ComputationAt w msg .out (hashFinal w msg) n sigma s) :
    (outputs (outStage s)).digest = some (streebog w msg) := by
  have done : (outStage s).done = true := by
    obtain ⟨_, _, e, -⟩ := outStage_cases s
    rw [e]
  rw [outputs, done]
  refine congrArg some ?_
  cases w with
  | w256 => rw [take_digest_outStage_w256 hs.cfg, hs.h, streebog]
  | w512 => rw [take_digest_outStage_w512 hs.cfg, hs.h, streebog]

end Stages

/-! ### The core is busy until the last stage -/

/-- In `IDLE` no stage is due, so a core that is busy after `k` stages was busy before each of them. -/
theorem phase_ne_idle_of_iterate {s : State} {j k : Nat} (hjk : j ≤ k) (h : (stageEffect^[k] s).phase ≠ .idle) :
    (stageEffect^[j] s).phase ≠ .idle := by
  intro idle
  obtain ⟨i, rfl⟩ := Nat.exists_eq_add_of_le' hjk
  rw [Function.iterate_add_apply, Function.iterate_fixed (stageEffect_idle idle)] at h
  exact h idle

/-- Settles O51: the two commands start the computation; its stages keep to R173's values block by block, up to `OUT`. -/
theorem computationYieldsTheHash : Obligations.ComputationYieldsTheHash := by
  intro s w msg len ha hsel hh hlen hmsg
  have commands : Host.Core.run core 2 s = .next (computationStart w len s) := run_commands ha hsel hh
  have turn : controllerRuns (computationStart w len s) := ⟨rfl, hsel⟩
  have run (j : Nat) : Host.Core.run core (2 + j) s = .next (stageEffect^[j] (computationStart w len s)) :=
    (run_add 2 j commands).trans (run_controller turn j)
  have start : ComputationAt w msg .init s.h s.n s.sigma (computationStart w len s) :=
    ⟨rfl, rfl, hlen, hmsg, rfl, rfl, rfl, rfl⟩
  have final := computationAt_out_of_init start
  refine ⟨⟨_, run _, ?_⟩, fun k hk hlt => ?_⟩
  · rw [Function.iterate_succ_apply', stageEffect_out final.phase]
    have digest := outputs_digest_outStage final
    obtain ⟨_, _, e, -⟩ := outStage_cases (stageEffect^[msg.length / 64 + 4] (computationStart w len s))
    rw [e] at digest ⊢
    exact ⟨rfl, rfl, final.errCode, digest⟩
  · obtain ⟨j, rfl⟩ := Nat.exists_eq_add_of_le hk
    have busy : (stageEffect^[msg.length / 64 + 4] (computationStart w len s)).phase ≠ .idle := by
      rw [final.phase]
      decide
    exact ⟨_, run j, phase_ne_idle_of_iterate (by omega) busy⟩

end Sys2Proof.Proofs
end

section
/-! PROOFS. The command channel and the two host commands (spec/45_host_commands.md R190 to R192), and the digest read while
`DONE = 1` (R193). -/

namespace Sys2Proof.Proofs

open Sys2Proof.Machine Sys2Proof.Laws

/-! ### The command channel (R190) -/

section Channel

variable {s : State} {w : CmdWord} {rest : List HostAction} (hsel : s.dp.sel = 0#4)
include hsel

/-- A word presented once to a core that does not accept it is given up, and nothing else happens. -/
theorem step_command_of_not_accepts (hh : s.host = .command w :: rest) (ha : accepts s = false) :
    step s = .next (withHost rest s) := by
  have refused : ¬ accepts (withHost rest s) = true := Bool.eq_false_iff.1 ha
  rw [step_command hsel w hh, presentCommand_eq, if_neg refused]

/-- While the core does not accept the held word, the controller takes its step. -/
theorem step_hold_of_not_accepts (hh : s.host = .hold w :: rest) (ha : accepts s = false) :
    step s = .next (stageEffect s) := by
  rw [step_eq_hostStep hsel, hostStep, hh, ← controllerStep_eq s]
  exact if_neg (Bool.eq_false_iff.1 ha)

/-- An accepted word is presented in the same way, once or held. -/
theorem step_eq_presentCommand (hh : s.host = .command w :: rest ∨ s.host = .hold w :: rest) (ha : accepts s = true) :
    step s = presentCommand w (withHost rest s) :=
  hh.elim (step_command hsel w) (step_hold_of_accepts hsel w · ha)

end Channel

/-- An accepted word with another opcode than the two is the error of an illegal command (R87, R203). -/
theorem presentCommand_of_illegal {w : CmdWord} {s : State} (ha : accepts s = true) (h1 : opField w ≠ 0x01#8)
    (h2 : opField w ≠ 0x02#8) :
    presentCommand w s = .next (raise .illegalCommand ((opField w).setWidth 64) s) := by
  rw [presentCommand_eq, if_pos ha, commandEffect, if_neg h1, if_neg h2]

/-- Settles O7, by the word's way of presentation where it is not accepted, and by its opcode where it is. -/
theorem commandChannelAcceptance : Obligations.CommandChannelAcceptance := by
  refine ⟨accepts_iff, fun s w rest hsel => ⟨step_command_of_not_accepts hsel, ?held, ?accepted⟩⟩
  case held =>
    intro hh ha
    refine ⟨stageEffect (withHost [] s), step_eq_controllerStep (s := withHost [] s) hsel rfl, ?_⟩
    rw [step_hold_of_not_accepts hsel hh ha]
    exact congrArg _ (stageEffect_withHost s.host (withHost [] s))
  case accepted =>
    intro hh ha
    have ha' : accepts (withHost rest s) = true := ha
    rw [step_eq_presentCommand hsel hh ha]
    refine ⟨fun h1 => presentCommand_of_decode ha' (if_pos h1), fun h2 => ?_, presentCommand_of_illegal ha'⟩
    have h1 : opField w ≠ 0x01#8 := fun h1 => absurd (h1.symm.trans h2) (by decide)
    exact presentCommand_of_decode ha' ((if_neg h1).trans (if_pos h2))

/-- Settles O10: no effect offered to a core that is busy or in the fatal state is taken. -/
theorem unacceptedCommandHasNoEffect : Obligations.UnacceptedCommandHasNoEffect := by
  intro s arg h
  have refused : accepts s = false := by
    rw [Bool.eq_false_iff, Ne, accepts_iff]
    rintro ⟨hp, he | he⟩ <;> simp [hp, he] at h
  exact ⟨congrArg _ (offer_of_not_accepts refused _), congrArg _ (offer_of_not_accepts refused _)⟩

/-! ### `CONSTRUCT` and `COMPUTE` (R191, R192) -/

/-- At rest a configuration error writes `CFG`, `DONE`, `ERR_CODE` and `ERR_INFO` only (R206). -/
theorem raise_config_of_idle {s : State} (hp : s.phase = .idle) (info : Word64) :
    raise .config info s = { s with cfg := none, done := false, errCode := some .config, errInfo := info } := by
  rw [raise, if_pos rfl, ← hp]

/-- A core that accepts `CONSTRUCT` takes its effect. -/
theorem exec_construct_of_accepts {s : State} (ha : accepts s = true) (width : Word64) :
    exec (.construct width) s = .next (constructEffect width s) :=
  congrArg _ (offer_of_accepts ha _)

/-- A core that accepts `COMPUTE` takes its effect. -/
theorem exec_compute_of_accepts {s : State} (ha : accepts s = true) (len : Word64) :
    exec (.compute len) s = .next (computeEffect len s) :=
  congrArg _ (offer_of_accepts ha _)

/-- An accepted `CONSTRUCT` of a legal width leaves that width and no error. -/
theorem exec_construct_widthOperand {s : State} (ha : accepts s = true) (w : Width) :
    exec (.construct (widthOperand w)) s = .next { s with cfg := some w, done := false, errCode := none } := by
  rw [exec_construct_of_accepts ha, constructEffect_widthOperand, clearConfigError_of_accepts ha]

/-- An operand that names no width is a configuration error. -/
theorem constructEffect_of_illegal_width {width : Word64} (h256 : width ≠ 256#64) (h512 : width ≠ 512#64) (s : State) :
    constructEffect width s = raise .config width s := by
  have noWidth : widthOf width = none := by rw [widthOf, if_neg h256, if_neg h512]
  rw [constructEffect, noWidth]

/-- Settles O8: the operands of the two widths configure them, and every other operand is the configuration error. -/
theorem constructConfiguresOrRejects : Obligations.ConstructConfiguresOrRejects := by
  refine ⟨fun _ => rfl, fun s width hp he => ?_⟩
  have ha : accepts s = true := (accepts_iff s).2 ⟨hp, he⟩
  refine ⟨?w256, ?w512, ?other⟩
  case w256 =>
    rintro rfl
    exact exec_construct_widthOperand ha .w256
  case w512 =>
    rintro rfl
    exact exec_construct_widthOperand ha .w512
  case other =>
    intro h256 h512
    rw [exec_construct_of_accepts ha, constructEffect_of_illegal_width h256 h512, raise_config_of_idle hp]

/-- Settles O9: what the accepted command does is decided by `CFG` alone. -/
theorem computeStartsOrRejects : Obligations.ComputeStartsOrRejects := by
  refine ⟨fun _ => rfl, fun s len hp he => ?_⟩
  rw [exec_compute_of_accepts ((accepts_iff s).2 ⟨hp, he⟩)]
  obtain ⟨hc, e⟩ | ⟨hc, e⟩ := computeEffect_cases len s <;> rw [e]
  · refine ⟨fun configured => absurd hc configured, fun _ => ?_⟩
    rw [raise_config_of_idle hp, ← hc]
  · exact ⟨fun _ => rfl, fun unconfigured => absurd unconfigured hc⟩

/-! ### The digest while `DONE = 1` (R193) -/

/-- A finished core is at rest, so a step clears `DONE` by reset or by an accepted command, or it leaves `DONE`, `CFG` and
`DIGEST` alone (R25, R32). -/
theorem step_of_done {s u : State} (hi : Inv s) (hd : s.done = true) (h : step s = .next u) :
    (u.done = s.done ∧ u.cfg = s.cfg ∧ u.digest = s.digest) ∨
    (u.done = false ∧ (resetAsserted s = true ∨ (s.dp.sel = 0#4 ∧ accepts s = true ∧ ∃ w, Presents s w))) := by
  obtain ⟨rest, hh, rfl⟩ | ⟨_, _, _, rfl⟩ | ⟨w, rest, hsel, hh, ha, rfl⟩ | ⟨_, _, rfl⟩ | ⟨_, rfl⟩ | ⟨rest, -, rfl⟩ :=
    step_cases h
  · exact .inr ⟨rfl, .inl (by rw [resetAsserted, hh])⟩
  · exact .inl ⟨rfl, rfl, rfl⟩
  · exact .inr ⟨commandEffect_done w _, .inr ⟨hsel, ha, w, rest, hh⟩⟩
  · exact .inl ⟨rfl, rfl, rfl⟩
  · exact .inl ⟨rfl, rfl, rfl⟩
  · obtain ⟨idle, -⟩ := hi.finished hd
    rw [stageEffect_idle (s := withHost rest s) idle]
    exact .inl ⟨rfl, rfl, rfl⟩

/-- While `DONE = 1` the digest output is the first `DLEN` lanes of `DIGEST`. -/
theorem outputs_digest_of_done {s : State} (hd : s.done = true) :
    (outputs s).digest = some (s.digest.toList.take (dlen s.cfg)) := if_pos hd

/-- While `DONE = 1` every read of a lane below `DLEN` finds the lane of `DIGEST`. -/
theorem laneSeen_of_done {s : State} (hd : s.done = true) (read : Nat) {j : Fin 64} (hj : j.val < dlen s.cfg) :
    laneSeen read s j = s.digest[j] := if_pos ⟨hd, hj⟩

/-- The outputs `DLEN` and digest are functions of `DONE`, `CFG` and `DIGEST`. -/
theorem outputs_digest_congr {s u : State} (hd : u.done = s.done) (hc : u.cfg = s.cfg) (hg : u.digest = s.digest) :
    (outputs u).dlen = (outputs s).dlen ∧ (outputs u).digest = (outputs s).digest := by
  simp only [outputs, hd, hc, hg, and_self]

/-- Settles O41: what a step does to a finished core, and the lanes promised at each width. -/
theorem digestIsReadWhileDone : Obligations.DigestIsReadWhileDone := by
  refine ⟨fun s u hi hd h => ?step, fun s hd => ⟨fun hc => ?w512, fun hc => ?w256⟩⟩
  case step =>
    obtain ⟨kept, hc, hg⟩ | cleared := step_of_done hi hd h
    · exact .inl ⟨kept.trans hd, outputs_digest_congr kept hc hg⟩
    · exact .inr cleared
  case w512 =>
    have lanes : dlen s.cfg = 64 := by rw [hc, dlen]
    refine ⟨lanes, ?_, fun read j => laneSeen_of_done hd read (by omega)⟩
    rw [outputs_digest_of_done hd, lanes, List.take_of_length_le (by simp)]
  case w256 =>
    have lanes : dlen s.cfg = 32 := by rw [hc, dlen]
    refine ⟨lanes, ?_, fun read j hj => laneSeen_of_done hd read (by omega)⟩
    rw [outputs_digest_of_done hd, lanes]

end Sys2Proof.Proofs
end

section
/-! PROOFS. Errors, the fatal state and several cores (spec/60_exceptions.md R202, R203, R206, R210, R216). -/

namespace Sys2Proof.Proofs

open Sys2Proof.Machine Sys2Proof.Laws

/-! ### Error entry (R206) -/

/-- Settles O13: error entry is this record update, with the codes of R205. -/
theorem errorEntryWritesExactly : Obligations.ErrorEntryWritesExactly :=
  ⟨fun _ _ _ => rfl, rfl, rfl, rfl, rfl⟩

/-- Entry into an error that is no configuration error keeps `CFG` (R206). -/
theorem raise_of_ne_config {e : CoreError} (he : e ≠ .config) (info : Word64) (s : State) :
    raise e info s = { s with errCode := some e, errInfo := info, done := false, phase := .idle } := by
  rw [raise, if_neg he]

/-- Settles O11: the core is at rest and stays there, and the error recorded is that of the opcode. -/
theorem illegalOpcodeEntersFatalError : Obligations.IllegalOpcodeEntersFatalError := by
  intro s w rest hsel hh hp he h1 h2
  have ha : accepts s = true := (accepts_iff s).2 ⟨hp, he⟩
  have ha' : accepts (withHost rest s) = true := ha
  rw [step_eq_presentCommand hsel (.inl hh) ha, presentCommand_of_illegal ha' h1 h2, raise_of_ne_config (by decide), ← hp]
  rfl

/-! ### Read faults (R202) -/

/-- `FULL` over a block the memory cannot supply is error entry alone. -/
theorem fullStage_of_memRead_none {s : State} (h : memRead s.msg s.pos.toNat 64 = none) :
    fullStage s = raise .invariantViolation s.pos s := by
  rw [fullStage, h]

/-- `TAIL` over a tail the memory cannot supply is error entry alone. -/
theorem tailStage_of_memRead_none {s : State} (h : memRead s.msg s.pos.toNat (remaining s) = none) :
    tailStage s = raise .invariantViolation s.pos s := by
  rw [tailStage, h]

/-- Settles O12: one missing byte leaves the whole transaction unanswered, and the stage that issued it raises the error. -/
theorem readFaultAbortsTheComputation : Obligations.ReadFaultAbortsTheComputation := by
  refine fun s hp => ⟨fun hd missing => ?full, fun hd missing => ?tail⟩
  case full =>
    rw [exec_of_decodeStage (decodeStage_full hp hd), stageEffect_full hp hd,
      fullStage_of_memRead_none (memRead_eq_none.2 missing), raise_of_ne_config (by decide)]
  case tail =>
    rw [exec_of_decodeStage (decodeStage_tail hp hd), stageEffect_tail hp hd,
      tailStage_of_memRead_none (memRead_eq_none.2 missing), raise_of_ne_config (by decide)]

/-! ### The fatal state (R210) -/

/-- In the fatal state no command is accepted (R190). -/
theorem accepts_eq_false_of_fatal {s : State} (h : fatal s = true) : accepts s = false :=
  Bool.eq_false_iff.2 fun ha => Bool.false_ne_true ((fatal_eq_false_of_accepts ha).symm.trans h)

/-- A step of a fatal core at rest without reset changes the message memory and moves the script on, and nothing else. -/
theorem step_of_fatal {s : State} (hf : fatal s = true) (hp : s.phase = .idle) (hsel : s.dp.sel = 0#4)
    (hr : ∀ a ∈ s.host, a ≠ HostAction.reset) :
    ∃ m rest, rest <:+ s.host ∧ step s = .next (withMessage m (withHost rest s)) := by
  have ha : accepts s = false := accepts_eq_false_of_fatal hf
  cases hh : s.host with
  | nil => exact ⟨s.msg, s.host, by rw [hh], by rw [step_eq_controllerStep hsel hh, stageEffect_idle hp]; rfl⟩
  | cons a rest =>
    have shorter : rest <:+ a :: rest := List.suffix_cons a rest
    cases a with
    | reset => exact absurd rfl (hr .reset (by rw [hh]; exact List.mem_cons_self))
    | command w => exact ⟨s.msg, rest, shorter, step_command_of_not_accepts hsel hh ha⟩
    | hold w =>
      refine ⟨s.msg, s.host, by rw [hh], ?_⟩
      rw [step_hold_of_not_accepts hsel hh ha, stageEffect_idle hp]
      rfl
    | message bs => exact ⟨_, rest, shorter, step_message hsel hh⟩
    | write a b => exact ⟨_, rest, shorter, step_write hsel hh⟩
    | withdraw a => exact ⟨_, rest, shorter, step_withdraw hsel hh⟩
    | pass => exact ⟨s.msg, rest, shorter, (step_pass hsel hh).trans (controllerStep_idle hp)⟩
    | wait => exact ⟨s.msg, rest, shorter, step_wait_of_idle hsel hh hp⟩

/-- Any number of steps of such a core changes the message memory and moves the script on, and nothing else. -/
theorem run_of_fatal (k : Nat) {s : State} (hf : fatal s = true) (hp : s.phase = .idle) (hsel : s.dp.sel = 0#4)
    (hr : ∀ a ∈ s.host, a ≠ HostAction.reset) :
    ∃ m rest, Host.Core.run core k s = .next (withMessage m (withHost rest s)) := by
  induction k generalizing s with
  | zero => exact ⟨s.msg, s.host, rfl⟩
  | succ k ih =>
    obtain ⟨m, rest, shorter, first⟩ := step_of_fatal hf hp hsel hr
    rw [run_succ_of_step first]
    exact ih (s := withMessage m (withHost rest s)) hf hp hsel fun a ha => hr a (shorter.subset ha)

/-- Settles O14: the message memory and the host's script are no registers, and no output shows them. -/
theorem fatalStateIsStuckUntilReset : Obligations.FatalStateIsStuckUntilReset := by
  intro k s hf hp hsel hr
  obtain ⟨m, rest, run⟩ := run_of_fatal k hf hp hsel hr
  exact ⟨_, run, rfl, rfl, hf, accepts_eq_false_of_fatal hf⟩

/-! ### Several cores (R216) -/

/-- Everything a step of core `c` can do that goes on: its own step, in its own place, or nothing where there is no such
core. -/
theorem stepCore_cases {c : Nat} {cores cores' : List State} (h : stepCore c cores = .next cores') :
    (cores[c]? = none ∧ cores' = cores) ∨
    (∃ s t, cores[c]? = some s ∧ step s = .next t ∧ cores' = cores.set c t) := by
  rw [stepCore] at h
  cases hc : cores[c]? with
  | none =>
    rw [hc] at h
    cases h
    exact .inl ⟨rfl, rfl⟩
  | some s =>
    simp only [hc] at h
    split at h
    · next t hs =>
      cases h
      exact .inr ⟨s, t, rfl, hs, rfl⟩
    · cases h
    · cases h

/-- Settles O54: the list is written at the place of the core that steps and nowhere else. -/
theorem coresShareNothing : Obligations.CoresShareNothing := by
  intro c d cores cores' hcd h
  obtain ⟨hc, rfl⟩ | ⟨s, t, hc, hs, rfl⟩ := stepCore_cases h
  · refine ⟨rfl, rfl, fun s here => ?_⟩
    cases hc.symm.trans here
  · refine ⟨List.getElem?_set_ne hcd, List.length_set, fun s' here => ?_⟩
    cases hc.symm.trans here
    obtain ⟨inside, -⟩ := List.getElem?_eq_some_iff.1 hc
    exact ⟨t, hs, List.getElem?_set_self inside⟩

end Sys2Proof.Proofs
end

section
/-! PROOFS. Reset (spec/70_reset_and_hazards.md R230) and the end of every computation (R243, R245). -/

namespace Sys2Proof.Proofs

open Sys2Proof.Machine Sys2Proof.Laws

/-! ### The end of a computation (R243, R245) -/

/-- The core has come to rest, with a digest and no error or with an error and no digest (R245). -/
structure AtRestWithOutcome (s : State) : Prop where
  rest : s.phase = .idle
  outcome : (s.done = true ∧ s.errCode = none) ∨ (s.done = false ∧ err s = true)

/-- No computation has more stages ahead of it than one that starts with `INIT` (R243). -/
theorem stagesLeft_le (s : State) : stagesLeft s ≤ s.len.toNat / 64 + 5 := by
  unfold stagesLeft
  cases s.phase with
  | absorb =>
    have within : remaining s / 64 ≤ s.len.toNat / 64 := Nat.div_le_div_right (Nat.sub_le ..)
    simp only
    omega
  | _ => simp

/-- `FULL` leaves fewer stages: 64 bytes less remain, or the core is at rest (R164, R202). -/
theorem stagesLeft_fullStage_lt {s : State} (hp : s.phase = .absorb) (hd : 64 ≤ remaining s) :
    stagesLeft (fullStage s) < stagesLeft s := by
  obtain ⟨-, e⟩ | ⟨_, _, _, _, _, _, -, -, -, -, -, -, e⟩ := fullStage_cases s <;> rw [e]
  · simp [stagesLeft, hp]
  · have hrem : s.len.toNat - (s.pos + 64#64).toNat = remaining s - 64 := by
      unfold remaining at hd ⊢
      bv_omega
    simp only [stagesLeft, hp, remaining, hrem] at hd ⊢
    omega

/-- `TAIL` leaves fewer stages: the three of the finalization, or none (R165, R202). -/
theorem stagesLeft_tailStage_lt {s : State} (hp : s.phase = .absorb) :
    stagesLeft (tailStage s) < stagesLeft s := by
  obtain ⟨-, e⟩ | ⟨_, _, _, _, _, _, -, -, -, -, -, -, e⟩ := tailStage_cases s <;> rw [e] <;>
    simp only [stagesLeft, hp, raise_phase] <;> omega

/-- Every stage leaves fewer stages to come (R172): the measure that bounds a computation. -/
theorem stagesLeft_stageEffect_lt {s : State} (hp : s.phase ≠ .idle) : stagesLeft (stageEffect s) < stagesLeft s := by
  cases h : s.phase with
  | idle => exact absurd h hp
  | init => simp [stageEffect_init h, stagesLeft, h, remaining]
  | absorb =>
    by_cases hd : 64 ≤ remaining s
    · exact stageEffect_full h hd ▸ stagesLeft_fullStage_lt h hd
    · exact stageEffect_tail h (Nat.not_le.1 hd) ▸ stagesLeft_tailStage_lt h
  | finN =>
    obtain ⟨_, _, -, -, e⟩ := finNStage_cases s
    simp [stageEffect_finN h, e, stagesLeft, h]
  | finS =>
    obtain ⟨_, _, -, -, e⟩ := finSStage_cases s
    simp [stageEffect_finS h, e, stagesLeft, h]
  | out =>
    obtain ⟨_, _, e, -⟩ := outStage_cases s
    simp [stageEffect_out h, e, stagesLeft, h]

/-- With an error recorded there is no digest (R32). -/
theorem done_eq_false_of_errCode {s : State} (hi : Inv s) (he : s.errCode ≠ none) : s.done = false := by
  refine Bool.eq_false_iff.2 fun hd => ?_
  obtain ⟨-, -, noError⟩ := hi.finished hd
  exact he noError

/-- A stage that brings the core to rest is an aborted read or `OUT`, and leaves the outcome of the computation (R172). -/
theorem atRestWithOutcome_stageEffect {s : State} (hi : Inv s) (hp : s.phase ≠ .idle)
    (rest : (stageEffect s).phase = .idle) : AtRestWithOutcome (stageEffect s) := by
  have hi' : Inv (stageEffect s) := inv_stageEffect hi
  refine ⟨rest, ?_⟩
  obtain e | ⟨-, e⟩ | ⟨-, e, -⟩ | ⟨-, -, he⟩ | ⟨-, e⟩ | ⟨-, e⟩ | ⟨-, -, hd⟩ := stageEffect_phase s
  · exact absurd (e.symm.trans rest) hp
  · cases e.symm.trans rest
  · cases e.symm.trans rest
  · have recorded : (stageEffect s).errCode ≠ none := by simp [he]
    exact .inr ⟨done_eq_false_of_errCode hi' recorded, (err_iff _).2 recorded⟩
  · cases e.symm.trans rest
  · cases e.symm.trans rest
  · obtain ⟨-, -, noError⟩ := hi'.finished hd
    exact .inl ⟨hd, noError⟩

/-- A running computation comes to rest within any bound on the stages it has left. -/
theorem exists_iterate_atRestWithOutcome (n : Nat) {s : State} (hi : Inv s) (hp : s.phase ≠ .idle)
    (hn : stagesLeft s ≤ n) : ∃ k ≤ n, AtRestWithOutcome (stageEffect^[k] s) := by
  induction n generalizing s with
  | zero => exact absurd (stagesLeft_stageEffect_lt hp) (by omega)
  | succ n ih =>
    have fewer := stagesLeft_stageEffect_lt hp
    by_cases rest : (stageEffect s).phase = .idle
    · exact ⟨1, by omega, atRestWithOutcome_stageEffect hi hp rest⟩
    · obtain ⟨k, hk, ended⟩ := ih (inv_stageEffect hi) rest (by omega)
      exact ⟨k + 1, by omega, ended⟩

/-- Settles O50, by induction on the stages left: each stage leaves fewer, and the one that ends the computation leaves a
digest or an error. -/
theorem everyComputationEnds : Obligations.EveryComputationEnds := by
  intro s hi hp turn
  obtain ⟨k, hk, ended⟩ := exists_iterate_atRestWithOutcome (stagesLeft s) hi hp le_rfl
  have notBusy : busy (stageEffect^[k] s) = false := by simp [busy, ended.rest]
  exact ⟨k, _, hk, stagesLeft_le s, run_controller turn k, notBusy, ended.outcome⟩

/-! ### The reset action (R230) -/

/-- After reset the core accepts commands (R190, R230). -/
theorem accepts_resetCore (s : State) : accepts (resetCore s) = true :=
  (accepts_iff _).2 ⟨rfl, .inl rfl⟩

/-- Settles O16: with reset asserted the step is the reset action, whatever the rest of the state. -/
theorem resetActsInEveryState : Obligations.ResetActsInEveryState := by
  intro s rest hh
  exact ⟨resetCore (withHost rest s), step_reset hh, rfl, rfl, rfl, rfl, rfl, rfl, fun _ => rfl, rfl,
    accepts_resetCore _⟩

end Sys2Proof.Proofs
end
